-- ==== Sys2Proof/Word.lean ====
section
/-! DEFINITION. The word types of the block: bytes, 32-bit registers, 64-bit counters, and the 40-bit command and
response words (spec/30_encoding.md R48, R50). -/

namespace Sys2Proof

/-- A cell of RAW or ROWBUF, a colour channel, an opcode, a response code. -/
abbrev Byte := BitVec 8

/-- A packed RGBA5551 pixel word (R45). -/
abbrev Word16 := BitVec 16

/-- A 32-bit register, the operand field ARG, the response field DATA. -/
abbrev Word32 := BitVec 32

/-- The counters RAWLEN and EXPLEN (R20, R21). -/
abbrev Word64 := BitVec 64

/-- A command word or a response word (R48, R50). -/
abbrev PortWord := BitVec 40

end Sys2Proof
end

