-- ==== Sys2Proof/Syntax.lean ====
section
/-! DEFINITION. The ten commands, one constructor per row of spec/opcode_table.json (spec/30_encoding.md R51, R52). -/

namespace Sys2Proof

/-- A command with its operand. The operand forms are those of R51. -/
inductive Instr where
  /-- SETW imm32 (R61). -/
  | setw (v : Word32)
  /-- SETH imm32 (R62). -/
  | seth (v : Word32)
  /-- SETBE imm1 (R63). -/
  | setbe (b : Bool)
  /-- START (R64). -/
  | start
  /-- PUSH imm8 (R70). -/
  | push (b : Byte)
  /-- DECODE (R71). -/
  | decode
  /-- EMIT (R80). -/
  | emit
  /-- RD reg (R90); only the numbers 0 to 8 are legal, see `Instr.wellFormed`. -/
  | rd (n : Byte)
  /-- RDPX idx32 (R91). -/
  | rdpx (i : Word32)
  /-- RESET (R67). -/
  | reset
  deriving DecidableEq, Repr

end Sys2Proof
end

