-- ==== Sys2Proof/WellFormed.lean ====
section
/-! DEFINITION. Which commands the operand forms of spec/30_encoding.md R51 admit. -/

namespace Sys2Proof

/-- The one operand form whose values are not all legal is `reg`: "only `0 .. 8` are legal" (R51, R12). -/
def Instr.wellFormed : Instr → Bool
  | .rd n => decide (n.toNat ≤ 8)
  | .setw _ => true
  | .seth _ => true
  | .setbe _ => true
  | .start => true
  | .push _ => true
  | .decode => true
  | .emit => true
  | .rdpx _ => true
  | .reset => true

end Sys2Proof
end

