-- ==== Sys2Proof/Decode.lean ====
section
/-! DEFINITION. From a 40-bit command word to a command or a named rejection, and back
(spec/30_encoding.md R48, R51 to R55). -/

namespace Sys2Proof

/-- Why a word is illegal (R55). -/
inductive Illegal where
  /-- OP selects no command (R54). -/
  | reservedOpcode
  /-- A must-be-zero bit of ARG is one (R51). -/
  | argNotZero
  /-- An RD of a register number above 8 (R12). -/
  | noSuchRegister
  deriving DecidableEq, Repr

/-- OP, bits [39:32] (R48). -/
def opField (w : PortWord) : Byte := w.extractLsb' 32 8

/-- ARG, bits [31:0] (R48). -/
def argField (w : PortWord) : Word32 := w.extractLsb' 0 32

/-- The operand form `none`: ARG[31:0] must be zero (R51). -/
def formNone (arg : Word32) (i : Instr) : Except Illegal Instr :=
  if arg = 0 then .ok i else .error .argNotZero

/-- The operand form `imm1`: ARG[31:1] must be zero, ARG[0] is the operand (R51). -/
def formImm1 (arg : Word32) (f : Bool → Instr) : Except Illegal Instr :=
  if arg.extractLsb' 1 31 = 0 then .ok (f (arg.getLsbD 0)) else .error .argNotZero

/-- The operand form `imm8`: ARG[31:8] must be zero, ARG[7:0] is the operand (R51). -/
def formImm8 (arg : Word32) (f : Byte → Instr) : Except Illegal Instr :=
  if arg.extractLsb' 8 24 = 0 then .ok (f (arg.extractLsb' 0 8)) else .error .argNotZero

/-- The operand form `reg`: as `imm8`, and only the numbers 0 to 8 are legal (R51). -/
def formReg (arg : Word32) (f : Byte → Instr) : Except Illegal Instr :=
  if arg.extractLsb' 8 24 = 0 then
    if (arg.extractLsb' 0 8).toNat ≤ 8 then .ok (f (arg.extractLsb' 0 8)) else .error .noSuchRegister
  else .error .argNotZero

/-- Decoding a command word: total, and never looking at the state (R53). -/
def decode (w : PortWord) : Except Illegal Instr :=
  match (opField w).toNat with
  | 0x01 => .ok (.setw (argField w))
  | 0x02 => .ok (.seth (argField w))
  | 0x03 => formImm1 (argField w) .setbe
  | 0x04 => formNone (argField w) .start
  | 0x05 => formImm8 (argField w) .push
  | 0x06 => formNone (argField w) .decode
  | 0x07 => formNone (argField w) .emit
  | 0x08 => formReg (argField w) .rd
  | 0x09 => .ok (.rdpx (argField w))
  | 0x0A => formNone (argField w) .reset
  | _ => .error .reservedOpcode

/-- A word from its OP and ARG fields (R48). -/
def packWord (op : Byte) (arg : Word32) : PortWord := op ++ arg

/-- The word of a command, as each command's rule spells its encoding (R61 to R64, R67, R70, R71, R80, R90, R91). -/
def encode : Instr → PortWord
  | .setw v => packWord 0x01 v
  | .seth v => packWord 0x02 v
  | .setbe b => packWord 0x03 ((BitVec.ofBool b).setWidth 32)
  | .start => packWord 0x04 0
  | .push b => packWord 0x05 (b.setWidth 32)
  | .decode => packWord 0x06 0
  | .emit => packWord 0x07 0
  | .rd n => packWord 0x08 (n.setWidth 32)
  | .rdpx i => packWord 0x09 i
  | .reset => packWord 0x0A 0

/-- `match` of a command's row of the opcode map (R52). -/
def rowMatch : Instr → PortWord
  | .setw _ => 0x0100000000
  | .seth _ => 0x0200000000
  | .setbe _ => 0x0300000000
  | .start => 0x0400000000
  | .push _ => 0x0500000000
  | .decode => 0x0600000000
  | .emit => 0x0700000000
  | .rd _ => 0x0800000000
  | .rdpx _ => 0x0900000000
  | .reset => 0x0A00000000

/-- `mask` of a command's row of the opcode map (R52). -/
def rowMask : Instr → PortWord
  | .setw _ => 0xFF00000000
  | .seth _ => 0xFF00000000
  | .setbe _ => 0xFFFFFFFFFE
  | .start => 0xFFFFFFFFFF
  | .push _ => 0xFFFFFFFF00
  | .decode => 0xFFFFFFFFFF
  | .emit => 0xFFFFFFFFFF
  | .rd _ => 0xFFFFFFFF00
  | .rdpx _ => 0xFF00000000
  | .reset => 0xFFFFFFFFFF

/-- The word whose bits, numbered as spec/opcode_table.json numbers them, are the low `nbits` bits of `w`.
A command word is one 40-bit value with no byte order of its own (R48, R49), so bit k of `w` is bit k of the word. -/
def tableWord (nbits w : Nat) : PortWord := BitVec.ofNat 40 (w % 2 ^ nbits)

/-- The command the decoder reads from a table word, `none` where it is illegal. -/
def decodeTableWord (nbits w : Nat) : Option Instr := (decode (tableWord nbits w)).toOption

end Sys2Proof
end

