-- ==== Sys2Proof/Config.lean ====
section
/-! DEFINITION. What an implementation fixes: the one open parameter MAXPIX (spec/00_scope.md R5,
spec/92_eei_decisions.md D8). -/

namespace Sys2Proof

/-- MAXPIX - 1, the index of the last cell of RASTER, as the implementation fixes it.
It has no body, so every claim holds for every legal MAXPIX: as this constant runs over `BitVec 32`, MAXPIX runs over
exactly `1 .. 2^32`, the range rule R5 gives. DESIGN CHOICE (log 3), safe. -/
opaque Config.lastPixel : Word32

end Sys2Proof
end

