-- ==== Sys2Proof/Machine/State.lean ====
section
/-! DEFINITION. The state of the block, of its ports and of the parameters of its step relation
(spec/10_state.md), the state after reset (R27), and the reasons the model stops. -/

namespace Sys2Proof.Machine

/-- STATUS.PHASE (R15). The codes 5 to 7 "are never held", so they are no values here (log 4). -/
inductive Phase where
  | idle
  | loading
  | decoded
  | done
  | error
  deriving DecidableEq, Repr

/-- STATUS.ERR (R16). The codes 6 and 7 "are never held", so they are no values here (log 4). -/
inductive Err where
  /-- Code 0, none. -/
  | noErr
  /-- Code 1, ConfigError (R95). -/
  | config
  /-- Code 2, IoError (R96). -/
  | io
  /-- Code 3, FormatError (R97). -/
  | format
  /-- Code 4, EncodeError (R98). -/
  | encode
  /-- Code 5, CmdError (R99). -/
  | cmd
  deriving DecidableEq, Repr

/-- A cell of RASTER: four 8-bit channels with no byte order among themselves (R31). -/
structure Pixel where
  red : Byte
  green : Byte
  blue : Byte
  alpha : Byte
  deriving DecidableEq, Repr

/-- A memory: the cells that hold a value, each with its index, indices strictly rising.
An unlisted index is an absent cell: it has no value (R27, 93_implementation_defined.md V1; log 5). -/
abbrev Memory (α : Type) := List (Nat × α)

/-- The three private memories (R24). -/
inductive MemName where
  | raw
  | raster
  | rowBuf
  deriving DecidableEq, Repr

/-- What the host's side does to the block between commands (R49, R115). -/
inductive HostEvent where
  /-- The host presents one whole command word on the command port. -/
  | command (w : PortWord)
  /-- The hardware reset input. -/
  | hardReset
  deriving DecidableEq, Repr

/-- What the block puts on the sink port (R59, R81). -/
inductive SinkRequest where
  /-- `Sink.Row(bytes)`. -/
  | row (bytes : List Byte)
  /-- `Sink.End()`. -/
  | endOfImage
  deriving DecidableEq, Repr

/-- The sink's one-bit answer (R59). -/
inductive SinkAnswer where
  | ok
  | fail
  deriving DecidableEq, Repr

/-- What comes back while the block waits for the sink: an answer, with or without a hardware reset right after it,
or a hardware reset instead of an answer (R81, R117; log 7). -/
inductive SinkReply where
  /-- The sink answers and the block goes on. -/
  | answer (a : SinkAnswer)
  /-- The sink answers, and a hardware reset arrives before the block does anything else. -/
  | answerThenReset (a : SinkAnswer)
  /-- A hardware reset arrives while the transaction is outstanding. -/
  | resetFirst
  deriving DecidableEq, Repr

/-- One transaction as the sink port saw it (R81). `answer = none` marks a transaction that a hardware reset
abandoned: "whether the sink took that row is unspecified" (R117). -/
structure SinkTxn where
  request : SinkRequest
  answer : Option SinkAnswer
  deriving DecidableEq, Repr

/-- The whole state. The registers and memories are those of R12 and R24; the rest are the ports and the parameters of
the step relation that R26 names, which stand here because a step is a function of the state alone (log 1, 2, 3, 8). -/
structure State where
  /-- CTRL.BE (R13, R14). -/
  be : Bool
  /-- WIDTH (R18). -/
  width : Word32
  /-- HEIGHT (R19). -/
  height : Word32
  /-- STATUS.PHASE (R15). -/
  phase : Phase
  /-- STATUS.ERR (R16). -/
  err : Err
  /-- STATUS.FPHASE (R17). -/
  fphase : Phase
  /-- RAWLEN (R20). -/
  rawLen : Word64
  /-- EXPLEN (R21). -/
  expLen : Word64
  /-- ROWCNT (R22). -/
  rowCnt : Word32
  /-- RAW (R30). -/
  raw : Memory Byte
  /-- RASTER (R31). -/
  raster : Memory Pixel
  /-- ROWBUF (R32). -/
  rowBuf : Memory Byte
  /-- The response word last given on the command port, `none` when none was given since reset or since the running
  command was presented (R49, R50; log 12). -/
  response : Option PortWord
  /-- What the host's side has yet to do, oldest first (R26, R49; log 1). -/
  hostQueue : List HostEvent
  /-- What the sink has yet to answer, oldest first (R26, R81; log 2). -/
  sinkReplies : List SinkReply
  /-- The sink transactions made in this run, oldest first (R81; log 8). -/
  sinkSent : List SinkTxn
  /-- The sink transactions of earlier runs, oldest first (R117; log 8). -/
  sinkPast : List SinkTxn
  /-- MAXPIX - 1, the implementation's parameter (R5, R26; log 3). -/
  lastPixel : Word32
  deriving DecidableEq, Repr

/-- Why the model stops. No fault of the BLOCK is among these: those are next states (R100). -/
inductive Fault where
  /-- Raised by a read of a memory cell that holds no value, which no rule of the spec can reach (R28, V1: "a model
  that nevertheless has such a read path must make it a fault, never a zero"). Safe. -/
  | absentCell (m : MemName)
  /-- Raised by an access at an index the memory does not have (R30 to R32), which no rule of the spec can reach
  (R44). Safe. -/
  | noSuchCell (m : MemName)
  /-- Raised by EMIT when the sink never answers: EMIT never responds and the block hangs (R87, V3 "stuck"). Safe. -/
  | sinkSilent
  deriving DecidableEq, Repr

/-- Why the model refuses. -/
inductive Refusal where
  /-- Raised by an arm of `exec` that has no meaning yet. No arm is left so. Safe. -/
  | notModelled (mnemonic : String)
  deriving DecidableEq, Repr

/-- The outcome of a command or of a step. -/
abbrev Result := Host.Outcome State Fault Refusal

/-- The machine right after reset (R27): every register 0, phase IDLE, no error, every memory cell without a value, both
ports idle. Nothing has been presented by the host or sent to the sink, and MAXPIX is the implementation's. -/
def State.reset : State where
  be := false
  width := 0
  height := 0
  phase := .idle
  err := .noErr
  fphase := .idle
  rawLen := 0
  expLen := 0
  rowCnt := 0
  raw := []
  raster := []
  rowBuf := []
  response := none
  hostQueue := []
  sinkReplies := []
  sinkSent := []
  sinkPast := []
  lastPixel := Config.lastPixel

end Sys2Proof.Machine
end

