-- ==== Sys2Proof/Machine/Flags.lean ====
section
/-! DEFINITION. The codes of the status fields and the words the host reads them in. The block has no condition codes
(spec/10_state.md R23): STATUS is its one flag-like register (R15 to R17), CTRL its one control register (R13). -/

namespace Sys2Proof.Machine

/-- The code of a phase in STATUS.PHASE and STATUS.FPHASE (R15, R17). -/
def Phase.code : Phase → BitVec 3
  | .idle => 0
  | .loading => 1
  | .decoded => 2
  | .done => 3
  | .error => 4

/-- The code of an error kind in STATUS.ERR (R16). -/
def Err.code : Err → BitVec 3
  | .noErr => 0
  | .config => 1
  | .io => 2
  | .format => 3
  | .encode => 4
  | .cmd => 5

/-- CTRL as the host reads it: BE in bit 0, zero above (R13). -/
def ctrlWord (be : Bool) : Word32 := (BitVec.ofBool be).setWidth 32

/-- STATUS as the host reads it: PHASE [2:0], ERR [10:8], FPHASE [18:16], zero elsewhere (R15). -/
def statusWord (phase : Phase) (err : Err) (fphase : Phase) : Word32 :=
  (0 : BitVec 13) ++ fphase.code ++ (0 : BitVec 5) ++ err.code ++ (0 : BitVec 5) ++ phase.code

/-- The phase a run had reached: FPHASE in phase ERROR, else PHASE (R15, R17). -/
def reachedPhase (s : State) : Phase := if s.phase = .error then s.fphase else s.phase

/-- Whether RASTER holds this run's pixels: the condition `valid` of RDPX (R91). -/
def rasterValid (s : State) : Bool := reachedPhase s = .decoded || reachedPhase s = .done

end Sys2Proof.Machine
end

