-- ==== Sys2Proof/Machine/Operands.lean ====
section
/-! DEFINITION. What a command's operand names and what a response carries: the registers by number
(spec/43_readback.md R90) and the response word (spec/30_encoding.md R50). -/

namespace Sys2Proof.Machine

/-- The CODE field of a response (R50): OK, the kind of a fault, or NoData. The bytes 0x07 to 0xFF are never sent. -/
inductive RespCode where
  | ok
  | kind (k : Err)
  | noData
  deriving DecidableEq, Repr

/-- The byte of a response code; codes 1 to 5 are the values of STATUS.ERR (R50). -/
def RespCode.byte : RespCode → Byte
  | .ok => 0x00
  | .kind k => k.code.setWidth 8
  | .noData => 0x06

/-- The response word: CODE in [39:32], DATA in [31:0] (R50). -/
def responseWord (c : RespCode) (data : Word32) : PortWord := c.byte ++ data

/-- The register that RD reads, by its number; the numbers 9 to 255 do not exist (R12, R90). -/
def readRegister (n : Byte) (s : State) : Option Word32 :=
  match n.toNat with
  | 0 => some (ctrlWord s.be)
  | 1 => some s.width
  | 2 => some s.height
  | 3 => some (statusWord s.phase s.err s.fphase)
  | 4 => some (s.rawLen.extractLsb' 0 32)
  | 5 => some (s.rawLen.extractLsb' 32 32)
  | 6 => some (s.expLen.extractLsb' 0 32)
  | 7 => some (s.expLen.extractLsb' 32 32)
  | 8 => some s.rowCnt
  | _ => none

end Sys2Proof.Machine
end

