-- ==== Sys2Proof/Machine/PixelFormat.lean ====
section
/-! DEFINITION. The pure functions from stored bytes to pixels and back to bytes: `word16`
(spec/20_memory.md R33), `unpack5551`, `rescale5`, `alpha8`, `decode_pixel` (spec/41_decoder.md R72 to R75) and
`pack_rgba32` (spec/43_readback.md R92). -/

namespace Sys2Proof.Machine

/-- The packed word of two stored bytes, `b0` at the lower index: little-endian unless `be` (R33). -/
def word16 (b0 b1 : Byte) (be : Bool) : Word16 := if be then b0 ++ b1 else b1 ++ b0

/-- The four fields of a packed word (R45). -/
structure Fields5551 where
  red5 : BitVec 5
  green5 : BitVec 5
  blue5 : BitVec 5
  alpha1 : BitVec 1
  deriving DecidableEq, Repr

/-- The fields at bits [15:11], [10:6], [5:1] and [0] (R72). -/
def unpack5551 (w : Word16) : Fields5551 where
  red5 := w.extractLsb' 11 5
  green5 := w.extractLsb' 6 5
  blue5 := w.extractLsb' 1 5
  alpha1 := w.extractLsb' 0 1

/-- Rounded linear scaling of a 5-bit intensity to 8 bits (R73). -/
def rescale5 (v : BitVec 5) : Byte := BitVec.ofNat 8 ((v.toNat * 255 + 15) / 31)

/-- The one alpha bit to 0 or 255 (R74). -/
def alpha8 (a : BitVec 1) : Byte := BitVec.ofNat 8 (a.toNat * 255)

/-- The pixel of two stored bytes (R75). -/
def decodePixel (b0 b1 : Byte) (be : Bool) : Pixel :=
  let f := unpack5551 (word16 b0 b1 be)
  { red := rescale5 f.red5, green := rescale5 f.green5, blue := rescale5 f.blue5, alpha := alpha8 f.alpha1 }

/-- A pixel as the bytes of a row: red, green, blue, alpha, red first (R46, R82). -/
def Pixel.channels (p : Pixel) : List Byte := [p.red, p.green, p.blue, p.alpha]

/-- A pixel as one 32-bit value, red in the lowest byte (R92). -/
def packRgba32 (p : Pixel) : Word32 := p.alpha ++ p.blue ++ p.green ++ p.red

end Sys2Proof.Machine
end

