-- ==== Sys2Proof/Machine/Ops.lean ====
section
/-! DEFINITION. The named operations over memories, ports and registers that the commands share: memory access
(spec/00_scope.md R7), responding (R50), fault entry (spec/60_exceptions.md R100) and the way out of it, reset (R106,
R115), the dispatch on the phase (spec/40_run_control.md R60), the sink port (spec/42_row_emitter.md R81) and the
command port (spec/30_encoding.md R49). -/

namespace Sys2Proof.Machine

variable {α : Type}

/-! ### Memories as sorted lists of cells -/

/-- The cell at an index, `none` where it is absent. -/
def Memory.read : Memory α → Nat → Option α
  | [], _ => none
  | (b, v) :: m, a => if a = b then some v else Memory.read m a

/-- Write of one cell, keeping the indices strictly rising. -/
def Memory.write : Memory α → Nat → α → Memory α
  | [], a, v => [(a, v)]
  | (b, w) :: m, a, v =>
    if a < b then (a, v) :: (b, w) :: m
    else if a = b then (a, v) :: m
    else (b, w) :: Memory.write m a v

/-- The canonical form: indices strictly rising. An absent cell is unlisted, so equal memories are equal lists. -/
abbrev Memory.wf (m : Memory α) : Prop := (m.map Prod.fst).Pairwise (· < ·)

/-- No cell is listed at or above `cap`. -/
abbrev Memory.within (cap : Nat) (m : Memory α) : Prop := ∀ c ∈ m, c.1 < cap

/-- `MemRead(M, a, 1)` on a memory of `cap` cells (R7). -/
def Memory.readCell (name : MemName) (cap : Nat) (m : Memory α) (a : Nat) : Except Fault α :=
  if a < cap then
    match Memory.read m a with
    | some v => .ok v
    | none => .error (.absentCell name)
  else .error (.noSuchCell name)

/-- `MemWrite(M, a, 1, [v])` on a memory of `cap` cells (R7). -/
def Memory.writeCell (name : MemName) (cap : Nat) (m : Memory α) (a : Nat) (v : α) : Except Fault (Memory α) :=
  if a < cap then .ok (Memory.write m a v) else .error (.noSuchCell name)

/-- `MemRead(M, a, n)`: the cells at `a .. a+n-1`, in index order (R7). -/
def Memory.readRange (name : MemName) (cap : Nat) (m : Memory α) : Nat → Nat → Except Fault (List α)
  | _, 0 => .ok []
  | a, n + 1 =>
    match Memory.readCell name cap m a with
    | .error f => .error f
    | .ok v =>
      match Memory.readRange name cap m (a + 1) n with
      | .error f => .error f
      | .ok vs => .ok (v :: vs)

/-- `MemWrite(M, a, n, vs)`: the list `vs` to the cells from `a` on (R7). -/
def Memory.writeRange (name : MemName) (cap : Nat) : Memory α → Nat → List α → Except Fault (Memory α)
  | m, _, [] => .ok m
  | m, a, v :: vs =>
    match Memory.writeCell name cap m a v with
    | .error f => .error f
    | .ok m' => Memory.writeRange name cap m' (a + 1) vs

/-! ### Sizes (R5, R24) -/

/-- MAXPIX, from 1 to 2^32. -/
def maxPix (s : State) : Nat := s.lastPixel.toNat + 1

/-- RAW has `2*MAXPIX` bytes (R30). -/
def rawCap (s : State) : Nat := 2 * maxPix s

/-- RASTER has `MAXPIX` pixels (R31). -/
def rasterCap (s : State) : Nat := maxPix s

/-- ROWBUF has `4*MAXPIX` bytes (R32). -/
def rowBufCap (s : State) : Nat := 4 * maxPix s

/-- `WIDTH*HEIGHT`, an unbounded product (R76 item 3). -/
def pixelCount (s : State) : Nat := s.width.toNat * s.height.toNat

/-! ### Named updates of one part of the state -/

/-- `CTRL.BE <- b`. -/
def setBe (b : Bool) (s : State) : State := { s with be := b }

/-- `WIDTH <- v`. -/
def setWidth (v : Word32) (s : State) : State := { s with width := v }

/-- `HEIGHT <- v`. -/
def setHeight (v : Word32) (s : State) : State := { s with height := v }

/-- `PHASE <- p`. -/
def setPhase (p : Phase) (s : State) : State := { s with phase := p }

/-- `RAWLEN <- v`. -/
def setRawLen (v : Word64) (s : State) : State := { s with rawLen := v }

/-- `EXPLEN <- v`. -/
def setExpLen (v : Word64) (s : State) : State := { s with expLen := v }

/-- `ROWCNT <- v`. -/
def setRowCnt (v : Word32) (s : State) : State := { s with rowCnt := v }

/-- The contents of RAW. -/
def setRaw (m : Memory Byte) (s : State) : State := { s with raw := m }

/-- The contents of RASTER. -/
def setRaster (m : Memory Pixel) (s : State) : State := { s with raster := m }

/-- The contents of ROWBUF. -/
def setRowBuf (m : Memory Byte) (s : State) : State := { s with rowBuf := m }

/-! ### The three memories of a state -/

/-- `RAW[a]`. -/
def readRaw (a : Nat) (s : State) : Except Fault Byte := Memory.readCell .raw (rawCap s) s.raw a

/-- `RAW[a] <- b`. -/
def writeRaw (a : Nat) (b : Byte) (s : State) : Except Fault State :=
  match Memory.writeCell .raw (rawCap s) s.raw a b with
  | .error f => .error f
  | .ok m => .ok (setRaw m s)

/-- `RASTER[i]`. -/
def readRaster (i : Nat) (s : State) : Except Fault Pixel := Memory.readCell .raster (rasterCap s) s.raster i

/-- `MemRead(RASTER, i, n)`. -/
def readRasterRange (i n : Nat) (s : State) : Except Fault (List Pixel) :=
  Memory.readRange .raster (rasterCap s) s.raster i n

/-- `MemWrite(RASTER, 0, n, ps)`. -/
def writeRaster (ps : List Pixel) (s : State) : Except Fault State :=
  match Memory.writeRange .raster (rasterCap s) s.raster 0 ps with
  | .error f => .error f
  | .ok m => .ok (setRaster m s)

/-- `MemRead(ROWBUF, 0, n)`. -/
def readRowBuf (n : Nat) (s : State) : Except Fault (List Byte) :=
  Memory.readRange .rowBuf (rowBufCap s) s.rowBuf 0 n

/-- `MemWrite(ROWBUF, 0, n, bs)`. -/
def writeRowBuf (bs : List Byte) (s : State) : Except Fault State :=
  match Memory.writeRange .rowBuf (rowBufCap s) s.rowBuf 0 bs with
  | .error f => .error f
  | .ok m => .ok (setRowBuf m s)

/-! ### Responding, taking a fault, leaving it -/

/-- `respond(code, data)` (R7, R50). -/
def respond (c : RespCode) (data : Word32) (s : State) : State :=
  { s with response := some (responseWord c data) }

/-- `raise Fault(k)`: fault entry, the one operation every fault of the block takes (R100). -/
def takeFault (k : Err) (s : State) : State :=
  respond (.kind k) 0 { s with fphase := s.phase, err := k, phase := .error }

/-- The answer to a command in phase ERROR: nothing changes, the stored kind is repeated (R101). -/
def answerStored (s : State) : State := respond (.kind s.err) 0 s

/-- The reset state of R27, the only way out of phase ERROR (R106), with no response given. Nothing is sent to the sink:
what it was sent in this run joins what it was sent before. The host's and the sink's future and MAXPIX are no state of the
block. -/
def resetBlock (s : State) : State :=
  { State.reset with
    hostQueue := s.hostQueue
    sinkReplies := s.sinkReplies
    sinkPast := s.sinkPast ++ s.sinkSent
    lastPixel := s.lastPixel }

/-! ### Dispatch on the phase (R60) -/

/-- A command that is accepted in phase `p` only: in phase ERROR the stored kind is answered, in another phase the fault
CmdError is taken, in phase `p` the command's own body runs (R60, R101, R99). -/
def inPhase (p : Phase) (body : State → Result) (s : State) : Result :=
  if s.phase = .error then .next (answerStored s)
  else if s.phase = p then body s
  else .next (takeFault .cmd s)

/-- An illegal word: in phase ERROR the stored kind is answered, else the fault CmdError is taken (R55, R60). -/
def runIllegal (s : State) : Result :=
  if s.phase = .error then .next (answerStored s) else .next (takeFault .cmd s)

/-! ### The sink port (R81) -/

/-- One transaction has gone out on the sink port and its reply has been used up. -/
def recordTxn (req : SinkRequest) (a : Option SinkAnswer) (rest : List SinkReply) (s : State) : State :=
  { s with sinkReplies := rest, sinkSent := s.sinkSent ++ [{ request := req, answer := a }] }

/-- One transaction: the block waits for the reply and then goes on with `onOk` or `onFail`. With no reply it waits for ever
(R87). A hardware reset during the wait, or right after the answer, abandons the command without a response (R117). -/
def sinkTransact (req : SinkRequest) (onOk onFail : State → Result) (s : State) : Result :=
  match s.sinkReplies with
  | [] => .fault .sinkSilent
  | .answer .ok :: rest => onOk (recordTxn req (some .ok) rest s)
  | .answer .fail :: rest => onFail (recordTxn req (some .fail) rest s)
  | .answerThenReset a :: rest => .next (resetBlock (recordTxn req (some a) rest s))
  | .resetFirst :: rest => .next (resetBlock (recordTxn req none rest s))

/-! ### The command port (R49) -/

/-- What the command port shows when the block looks at it. -/
inductive Fetched where
  /-- No command has been presented. -/
  | nothing
  /-- The hardware reset input, with the state in which that event is used up. -/
  | hardReset (s : State)
  /-- A command word, with the state in which it is outstanding. -/
  | word (w : PortWord) (s : State)
  deriving DecidableEq, Repr

/-- The event at the head of the host's list is used up, and `rest` is left. -/
def popHost (rest : List HostEvent) (s : State) : State := { s with hostQueue := rest }

/-- A command has been presented and is outstanding: no response to it has been given (R122). -/
def present (rest : List HostEvent) (s : State) : State := { s with hostQueue := rest, response := none }

/-- Take what the host's side does next. A presented command is outstanding until its response is given (R122). -/
def fetch (s : State) : Fetched :=
  match s.hostQueue with
  | [] => .nothing
  | .hardReset :: rest => .hardReset (popHost rest s)
  | .command w :: rest => .word w (present rest s)

end Sys2Proof.Machine
end

