-- ==== Sys2Proof/Machine/Decoder.lean ====
section
/-! DEFINITION. The Decoder's commands PUSH and DECODE (spec/41_decoder.md R70, R71). -/

namespace Sys2Proof.Machine

/-- The pushed byte is stored at RAWLEN while RAWLEN is below EXPLEN, and dropped otherwise (R70). -/
def storePushed (b : Byte) (s : State) : Except Fault State :=
  if s.rawLen.toNat < s.expLen.toNat then writeRaw s.rawLen.toNat b s else .ok s

/-- The saturating count of pushes (R20, R70). -/
def countPushed (s : State) : State :=
  if s.rawLen.toNat < 2 ^ 64 - 1 then setRawLen (s.rawLen + 1) s else s

/-- PUSH's own effect (R70). -/
def pushBody (b : Byte) (s : State) : Result :=
  match storePushed b s with
  | .error f => .fault f
  | .ok t => .next (respond .ok 0 (countPushed t))

/-- PUSH: one byte of the raw input, in phase LOADING (R70). -/
def execPush (b : Byte) (s : State) : Result := inPhase .loading (pushBody b) s

/-- The pixels `i .. i+n-1` of the raw buffer, each from its own two bytes (R71, R77). -/
def decodePixels (s : State) : Nat → Nat → Except Fault (List Pixel)
  | _, 0 => .ok []
  | i, n + 1 =>
    match readRaw (2 * i) s, readRaw (2 * i + 1) s with
    | .error f, _ => .error f
    | .ok _, .error f => .error f
    | .ok b0, .ok b1 =>
      match decodePixels s (i + 1) n with
      | .error f => .error f
      | .ok ps => .ok (decodePixel b0 b1 s.be :: ps)

/-- DECODE's own check and effect: the length as a whole, then every pixel (R71). -/
def decodeBody (s : State) : Result :=
  if s.rawLen ≠ s.expLen then .next (takeFault .format s)
  else
    match decodePixels s 0 (pixelCount s) with
    | .error f => .fault f
    | .ok ps =>
      match writeRaster ps s with
      | .error f => .fault f
      | .ok t => .next (respond .ok 0 (setPhase .decoded t))

/-- DECODE: the raw buffer to the Raster, in phase LOADING (R71). -/
def execDecode (s : State) : Result := inPhase .loading decodeBody s

end Sys2Proof.Machine
end

