-- ==== Sys2Proof/Machine/ReadBack.lean ====
section
/-! DEFINITION. The read-back commands RD and RDPX (spec/43_readback.md R90, R91). -/

namespace Sys2Proof.Machine

/-- RD: a register by its number, in every phase (R90). A number above 8 is no RD but an illegal encoding, handled as such
(R55, R90): the decoder gives none (log 10). -/
def execRd (n : Byte) (s : State) : Result :=
  match readRegister n s with
  | some v => .next (respond .ok v s)
  | none => runIllegal s

/-- RDPX: a pixel of the Raster by its index, in every phase; NoData where this run has decoded no such pixel (R91). -/
def execRdpx (i : Word32) (s : State) : Result :=
  if rasterValid s = true ∧ i.toNat < pixelCount s then
    match readRaster i.toNat s with
    | .error f => .fault f
    | .ok p => .next (respond .ok (packRgba32 p) s)
  else .next (respond .noData 0 s)

end Sys2Proof.Machine
end

