-- ==== Sys2Proof/Machine/RowEmitter.lean ====
section
/-! DEFINITION. The Row Emitter's command EMIT (spec/42_row_emitter.md R80 to R86). -/

namespace Sys2Proof.Machine

/-- `build_row(y)`: byte `4*x + c` of ROWBUF is channel c of `RASTER[y*WIDTH + x]` (R82). -/
def buildRow (y : Nat) (s : State) : Except Fault State :=
  match readRasterRange (y * s.width.toNat) s.width.toNat s with
  | .error f => .error f
  | .ok ps => writeRowBuf (ps.flatMap Pixel.channels) s

/-- The end-of-image signal, after the last row (R80, R85). -/
def emitEnd (s : State) : Result :=
  sinkTransact .endOfImage
    (fun t => .next (respond .ok 0 (setPhase .done t)))
    (fun t => .next (takeFault .encode t)) s

/-- The rows `y .. y+n-1` and then the end-of-image signal: each row is built, handed over and counted before the next is
built, and the first row refused ends the command (R80, R84). -/
def emitRows : Nat → Nat → State → Result
  | _, 0, s => emitEnd s
  | y, n + 1, s =>
    match buildRow y s with
    | .error f => .fault f
    | .ok t =>
      match readRowBuf (4 * t.width.toNat) t with
      | .error f => .fault f
      | .ok bytes =>
        sinkTransact (.row bytes)
          (fun u => emitRows (y + 1) n (setRowCnt (u.rowCnt + 1) u))
          (fun u => .next (takeFault .io u)) t

/-- EMIT's own effect (R80). -/
def emitBody (s : State) : Result := emitRows 0 s.height.toNat (setRowCnt 0 s)

/-- EMIT: hand the Raster to the sink, in phase DECODED (R80). -/
def execEmit (s : State) : Result := inPhase .decoded emitBody s

end Sys2Proof.Machine
end

