-- ==== Sys2Proof/Machine/RunControl.lean ====
section
/-! DEFINITION. The configuration and run-control commands SETW, SETH, SETBE, START, RESET
(spec/40_run_control.md R61 to R64, R67). -/

namespace Sys2Proof.Machine

/-- SETW: WIDTH, in phase IDLE (R61). -/
def execSetw (v : Word32) (s : State) : Result :=
  inPhase .idle (fun s => .next (respond .ok 0 (setWidth v s))) s

/-- SETH: HEIGHT, in phase IDLE (R62). -/
def execSeth (v : Word32) (s : State) : Result :=
  inPhase .idle (fun s => .next (respond .ok 0 (setHeight v s))) s

/-- SETBE: CTRL.BE, in phase IDLE (R63). -/
def execSetbe (b : Bool) (s : State) : Result :=
  inPhase .idle (fun s => .next (respond .ok 0 (setBe b s))) s

/-- START's own checks and effect, in unbounded arithmetic (R64, R95). -/
def startBody (s : State) : Result :=
  if s.width = 0 ∨ s.height = 0 then .next (takeFault .config s)
  else if maxPix s < pixelCount s then .next (takeFault .config s)
  else .next (respond .ok 0
    (setPhase .loading (setRawLen 0 (setExpLen (BitVec.ofNat 64 (2 * pixelCount s)) s))))

/-- START: validate the dimensions and freeze the configuration, in phase IDLE (R64). -/
def execStart (s : State) : Result := inPhase .idle startBody s

/-- RESET: the reset state, in every phase (R67). -/
def execReset (s : State) : Result := .next (respond .ok 0 (resetBlock s))

end Sys2Proof.Machine
end

