-- ==== Sys2Proof/Machine/Dispatch.lean ====
section
/-! DEFINITION. One arm per command (spec/40_run_control.md R60). The phase check of R60 stands in each meaning. -/

namespace Sys2Proof.Machine

def exec (i : Instr) (s : State) : Host.Outcome State Fault Refusal :=
  match i with
  | .setw v => Sys2Proof.Machine.execSetw v s
  | .seth v => Sys2Proof.Machine.execSeth v s
  | .setbe b => Sys2Proof.Machine.execSetbe b s
  | .start => Sys2Proof.Machine.execStart s
  | .push b => Sys2Proof.Machine.execPush b s
  | .decode => Sys2Proof.Machine.execDecode s
  | .emit => Sys2Proof.Machine.execEmit s
  | .rd n => Sys2Proof.Machine.execRd n s
  | .rdpx j => Sys2Proof.Machine.execRdpx j s
  | .reset => Sys2Proof.Machine.execReset s

end Sys2Proof.Machine
end

