-- ==== Sys2Proof/Machine/Step.lean ====
section
/-! DEFINITION. One step of the machine: the host's side does its next thing to the block, and a command it presents runs to
its response (spec/30_encoding.md R49, spec/40_run_control.md R60, spec/70_reset_and_hazards.md R115, R116, R122). -/

namespace Sys2Proof.Machine

/-- With nothing presented the block waits and nothing changes (R116); a hardware reset leaves the reset state (R115); a
command word is decoded and run (R60). -/
def step (s : State) : Host.Outcome State Fault Refusal :=
  match fetch s with
  | .nothing => .next s
  | .hardReset t => .next (resetBlock t)
  | .word w t =>
    match decode w with
    | .ok i => exec i t
    | .error _ => runIllegal t

/-- `s` with the table word `w` as the next command word the host presents (log 1). -/
def State.withFetchWord (s : State) (nbits w : Nat) : State :=
  { s with hostQueue := .command (tableWord nbits w) :: s.hostQueue }

end Sys2Proof.Machine
end

