-- ==== Sys2Proof/Machine/Assembler.lean ====
section
/-! DEFINITION. The textual syntax of the commands and the four pseudo-commands (spec/30_encoding.md R57, R58).
A line is a list of characters (log 11). -/

namespace Sys2Proof.Machine

/-! ### Pseudo-commands (R58) -/

/-- `CONFIG w, h, be`. -/
def configCommands (w h : Word32) (be : Bool) : List Instr := [.setw w, .seth h, .setbe be]

/-- `PUSHB b0, b1, ..., bn`. -/
def pushCommands (bytes : List Byte) : List Instr := bytes.map .push

/-- `PUSHW.LE v`: the word as a little-endian file stores it. -/
def pushWordLe (v : Word16) : List Instr := [.push (v.extractLsb' 0 8), .push (v.extractLsb' 8 8)]

/-- `PUSHW.BE v`: the word as a big-endian file stores it. -/
def pushWordBe (v : Word16) : List Instr := [.push (v.extractLsb' 8 8), .push (v.extractLsb' 0 8)]

/-! ### Operands (R51, R57) -/

/-- The value of a decimal digit. -/
def decimalDigit (c : Char) : Option Nat :=
  if 48 ≤ c.toNat ∧ c.toNat ≤ 57 then some (c.toNat - 48) else none

/-- The value of a hexadecimal digit, of either case. -/
def hexDigit (c : Char) : Option Nat :=
  if 48 ≤ c.toNat ∧ c.toNat ≤ 57 then some (c.toNat - 48)
  else if 65 ≤ c.toNat ∧ c.toNat ≤ 70 then some (c.toNat - 55)
  else if 97 ≤ c.toNat ∧ c.toNat ≤ 102 then some (c.toNat - 87)
  else none

/-- The number that digits spell after `acc`, most significant digit first. -/
def digitsFrom (digit : Char → Option Nat) (base : Nat) : Nat → List Char → Option Nat
  | acc, [] => some acc
  | acc, c :: cs =>
    match digit c with
    | some d => digitsFrom digit base (acc * base + d) cs
    | none => none

/-- A number: decimal, or hexadecimal after `0x`; at least one digit. -/
def parseNumber : List Char → Option Nat
  | [] => none
  | '0' :: 'x' :: [] => none
  | '0' :: 'x' :: c :: cs => digitsFrom hexDigit 16 0 (c :: cs)
  | c :: cs => digitsFrom decimalDigit 10 0 (c :: cs)

/-- A number that fits `n` bits; one that does not fit is an assembly error. -/
def parseBits (n : Nat) (cs : List Char) : Option (BitVec n) :=
  match parseNumber cs with
  | some v => if v < 2 ^ n then some (BitVec.ofNat n v) else none
  | none => none

/-- The operand of form imm1. -/
def parseFlag (cs : List Char) : Option Bool := (parseBits 1 cs).map (·.getLsbD 0)

/-- The register names the operand of RD may use, for the numbers 0 to 8 (R57). -/
def registerNames : List (List Char × Byte) :=
  [ (['C', 'T', 'R', 'L'], 0), (['W', 'I', 'D', 'T', 'H'], 1), (['H', 'E', 'I', 'G', 'H', 'T'], 2),
    (['S', 'T', 'A', 'T', 'U', 'S'], 3), (['R', 'A', 'W', 'L', 'E', 'N', '_', 'L', 'O'], 4),
    (['R', 'A', 'W', 'L', 'E', 'N', '_', 'H', 'I'], 5), (['E', 'X', 'P', 'L', 'E', 'N', '_', 'L', 'O'], 6),
    (['E', 'X', 'P', 'L', 'E', 'N', '_', 'H', 'I'], 7), (['R', 'O', 'W', 'C', 'N', 'T'], 8) ]

/-- The operand of form reg: a register name, or a number that is at most 8. -/
def parseRegister (cs : List Char) : Option Byte :=
  match registerNames.lookup cs with
  | some n => some n
  | none =>
    match parseBits 8 cs with
    | some n => if n.toNat ≤ 8 then some n else none
    | none => none

/-- Every operand of a list, or none if one of them does not fit. -/
def parseBytes : List (List Char) → Option (List Byte)
  | [] => some []
  | cs :: rest =>
    match parseBits 8 cs, parseBytes rest with
    | some b, some bs => some (b :: bs)
    | _, _ => none

/-! ### Lines (R57) -/

/-- The mnemonics a line may begin with: the ten commands and the four pseudo-commands. -/
inductive Mnemonic where
  | setw | seth | setbe | start | push | decode | emit | rd | rdpx | reset
  | config | pushb | pushwLe | pushwBe
  deriving DecidableEq, Repr

/-- The mnemonics as they are spelt. -/
def mnemonicNames : List (List Char × Mnemonic) :=
  [ (['S', 'E', 'T', 'W'], .setw), (['S', 'E', 'T', 'H'], .seth), (['S', 'E', 'T', 'B', 'E'], .setbe),
    (['S', 'T', 'A', 'R', 'T'], .start), (['P', 'U', 'S', 'H'], .push), (['D', 'E', 'C', 'O', 'D', 'E'], .decode),
    (['E', 'M', 'I', 'T'], .emit), (['R', 'D'], .rd), (['R', 'D', 'P', 'X'], .rdpx),
    (['R', 'E', 'S', 'E', 'T'], .reset), (['C', 'O', 'N', 'F', 'I', 'G'], .config), (['P', 'U', 'S', 'H', 'B'], .pushb),
    (['P', 'U', 'S', 'H', 'W', '.', 'L', 'E'], .pushwLe), (['P', 'U', 'S', 'H', 'W', '.', 'B', 'E'], .pushwBe) ]

/-- The commands of a mnemonic with its operands. -/
def assembleStatement (m : Mnemonic) (ops : List (List Char)) : Option (List Instr) :=
  match m, ops with
  | .setw, [v] => (parseBits 32 v).map fun v => [.setw v]
  | .seth, [v] => (parseBits 32 v).map fun v => [.seth v]
  | .setbe, [b] => (parseFlag b).map fun b => [.setbe b]
  | .start, [] => some [.start]
  | .push, [b] => (parseBits 8 b).map fun b => [.push b]
  | .decode, [] => some [.decode]
  | .emit, [] => some [.emit]
  | .rd, [n] => (parseRegister n).map fun n => [.rd n]
  | .rdpx, [i] => (parseBits 32 i).map fun i => [.rdpx i]
  | .reset, [] => some [.reset]
  | .config, [w, h, be] =>
    match parseBits 32 w, parseBits 32 h, parseFlag be with
    | some w, some h, some be => some (configCommands w h be)
    | _, _, _ => none
  | .pushb, b :: bs => (parseBytes (b :: bs)).map pushCommands
  | .pushwLe, [v] => (parseBits 16 v).map pushWordLe
  | .pushwBe, [v] => (parseBits 16 v).map pushWordBe
  | _, _ => none

/-- The line without its comment: everything from the first `;` on is dropped. -/
def dropComment (cs : List Char) : List Char := cs.takeWhile (· ≠ ';')

/-- The line without the spaces at its two ends. -/
def trimSpaces (cs : List Char) : List Char :=
  ((cs.dropWhile (· = ' ')).reverse.dropWhile (· = ' ')).reverse

/-- The pieces of a line between single spaces; `piece` is the one being read, reversed. -/
def splitSpaces : List Char → List Char → List (List Char)
  | piece, [] => [piece.reverse]
  | piece, c :: cs => if c = ' ' then piece.reverse :: splitSpaces [] cs else splitSpaces (c :: piece) cs

/-- The operands of a line: every piece but the last ends in a comma, which is dropped. -/
def dropCommas : List (List Char) → Option (List (List Char))
  | [] => some []
  | [p] => some [p]
  | p :: q :: rest =>
    if p.getLast? = some ',' then (dropCommas (q :: rest)).map (p.dropLast :: ·) else none

/-- The commands of one line: none at all for a line that holds only a comment, `none` for an assembly error. -/
def assembleLine (line : List Char) : Option (List Instr) :=
  match trimSpaces (dropComment line) with
  | [] => some []
  | c :: cs =>
    match splitSpaces [] (c :: cs) with
    | [] => none
    | name :: ops =>
      match mnemonicNames.lookup name, dropCommas ops with
      | some m, some ops => assembleStatement m ops
      | _, _ => none

/-- The commands of a program, one line after the other; an error in one line is an error of the whole. -/
def assemble : List (List Char) → Option (List Instr)
  | [] => some []
  | line :: rest =>
    match assembleLine line, assemble rest with
    | some is, some js => some (is ++ js)
    | _, _ => none

/-- The words the host presents for a program text. -/
def assembleWords (lines : List (List Char)) : Option (List PortWord) := (assemble lines).map (·.map encode)

end Sys2Proof.Machine
end

