-- ==== Sys2Proof/Safety.lean ====
section
/-! DEFINITION. The terms in which claims are stated: the acceptance table, the moves between phases, what a row holds, the
invariants of the reachable states, and how a run ends. -/

namespace Sys2Proof.Machine

/-- RD, RDPX and RESET, which are accepted in all five phases (spec/40_run_control.md R60). -/
def anyPhase : Instr → Bool
  | .rd _ => true
  | .rdpx _ => true
  | .reset => true
  | .setw _ => false
  | .seth _ => false
  | .setbe _ => false
  | .start => false
  | .push _ => false
  | .decode => false
  | .emit => false

/-- The one phase in which each other command is accepted (R60); for the three of `anyPhase` it is `none`. -/
def homePhase : Instr → Option Phase
  | .setw _ => some .idle
  | .seth _ => some .idle
  | .setbe _ => some .idle
  | .start => some .idle
  | .push _ => some .loading
  | .decode => some .loading
  | .emit => some .decoded
  | .rd _ => none
  | .rdpx _ => none
  | .reset => none

/-- The changes of PHASE that R65 lists, a phase that stays as it is among them. -/
def phaseMove (p q : Phase) : Prop :=
  q = p ∨ (p = .idle ∧ q = .loading) ∨ (p = .loading ∧ q = .decoded) ∨ (p = .decoded ∧ q = .done) ∨ q = .error ∨ q = .idle

/-- `bytes` is row `y` as `build_row(y)` makes it: byte `4*x + c` is channel c of `RASTER[y*WIDTH + x]`
(spec/42_row_emitter.md R82). -/
def RowOf (s : State) (y : Nat) (bytes : List Byte) : Prop :=
  bytes.length = 4 * s.width.toNat ∧
    ∀ x, x < s.width.toNat → ∃ p, Memory.read s.raster (y * s.width.toNat + x) = some p ∧
      bytes[4 * x]? = some p.red ∧ bytes[4 * x + 1]? = some p.green ∧
      bytes[4 * x + 2]? = some p.blue ∧ bytes[4 * x + 3]? = some p.alpha

/-- `rows` is the list of the rows `0, 1, ...` of the Raster, from the top. -/
def RowsOf (s : State) (rows : List (List Byte)) : Prop :=
  ∀ y, y < rows.length → ∃ bytes, rows[y]? = some bytes ∧ RowOf s y bytes

/-- A `Sink.Row` the sink accepted. -/
def rowAccepted (bytes : List Byte) : SinkTxn := { request := .row bytes, answer := some .ok }

/-- A `Sink.Row` the sink refused. -/
def rowRefused (bytes : List Byte) : SinkTxn := { request := .row bytes, answer := some .fail }

/-- A `Sink.End` with the sink's answer. -/
def endAnswered (a : SinkAnswer) : SinkTxn := { request := .endOfImage, answer := some a }

/-- `buf` is ROWBUF after the rows of `rows` were built one after the other: the last of them stands in it, and above it
ROWBUF is as it was (R82). -/
def RowBufAfter (s : State) (rows : List (List Byte)) (buf : Memory Byte) : Prop :=
  ∀ a, Memory.read buf a =
    if a < 4 * s.width.toNat then
      match rows.getLast? with
      | some bytes => bytes[a]?
      | none => Memory.read s.rowBuf a
    else Memory.read s.rowBuf a

/-- Everything the sink port has seen, oldest first. -/
def sinkHistory (s : State) : List SinkTxn := s.sinkPast ++ s.sinkSent

/-- `s` after the block has taken the fault `k`, whose response code is `code`, and nothing else (spec/60_exceptions.md
R100). -/
def faulted (k : Err) (code : Nat) (s : State) : State :=
  { s with fphase := s.phase, err := k, phase := .error, response := some (BitVec.ofNat 40 (code * 2 ^ 32)) }

/-- `s` after the answer `(ERR, 0)` of phase ERROR, and nothing else (R101). -/
def refusedInError (s : State) : State :=
  { s with response := some (BitVec.ofNat 40 (s.err.code.toNat * 2 ^ 32)) }

/-- The state table of spec/10_state.md R27, but for the command port: every register 0, phase IDLE, no error, no cell of a
memory with a value, and nothing sent to the sink in this run. -/
def ResetValues (t : State) : Prop :=
  t.be = false ∧ t.width = 0 ∧ t.height = 0 ∧ t.phase = .idle ∧ t.err = .noErr ∧ t.fphase = .idle ∧
  t.rawLen = 0 ∧ t.expLen = 0 ∧ t.rowCnt = 0 ∧
  (∀ a, Memory.read t.raw a = none) ∧ (∀ i, Memory.read t.raster i = none) ∧ (∀ a, Memory.read t.rowBuf a = none) ∧
  t.sinkSent = []

/-- Every cell that EMIT and RDPX may read is there: the Raster of R9 is whole and inside RASTER. -/
def RasterWhole (s : State) : Prop :=
  pixelCount s ≤ maxPix s ∧ ∀ i, i < pixelCount s → ∃ p, Memory.read s.raster i = some p

/-- Every cell that DECODE may read is there: the raw buffer of R9 is whole, and its pixels fit RASTER. -/
def RawWhole (s : State) : Prop :=
  pixelCount s ≤ maxPix s ∧ ∀ a, a < 2 * pixelCount s → ∃ b, Memory.read s.raw a = some b

/-- The invariants of spec/10_state.md R28 (its items 1, 2, 3, 5 and 6; of item 4, that the cells are there), with the
canonical form and the bounds of the three memories (R24, spec/20_memory.md R44). -/
structure StateInv (s : State) : Prop where
  err_iff : s.err ≠ .noErr ↔ s.phase = .error
  fphase_of_no_err : s.err = .noErr → s.fphase = .idle
  fphase_ne_error : s.fphase ≠ .error
  sized : reachedPhase s ≠ .idle → 1 ≤ s.width.toNat ∧ 1 ≤ s.height.toNat ∧ pixelCount s ≤ maxPix s ∧
    s.expLen.toNat = 2 * pixelCount s
  idle_zero : reachedPhase s = .idle → s.expLen = 0 ∧ s.rawLen = 0 ∧ s.rowCnt = 0
  raw_held : ∀ a, a < min s.rawLen.toNat s.expLen.toNat → ∃ b, Memory.read s.raw a = some b
  raster_decoded : rasterValid s = true → s.rawLen = s.expLen ∧ ∀ i, i < pixelCount s → ∃ b0 b1,
    Memory.read s.raw (2 * i) = some b0 ∧ Memory.read s.raw (2 * i + 1) = some b1 ∧
    Memory.read s.raster i = some (decodePixel b0 b1 s.be)
  rowCnt_le : s.rowCnt.toNat ≤ s.height.toNat
  rowCnt_done : s.phase = .done → s.rowCnt = s.height
  rowCnt_zero : s.phase = .loading ∨ s.phase = .decoded → s.rowCnt = 0
  raw_wf : Memory.wf s.raw
  raster_wf : Memory.wf s.raster
  rowBuf_wf : Memory.wf s.rowBuf
  raw_within : Memory.within (rawCap s) s.raw
  raster_within : Memory.within (rasterCap s) s.raster
  rowBuf_within : Memory.within (rowBufCap s) s.rowBuf

/-- What the sink has been sent in this run, by the phase the run has reached (spec/70_reset_and_hazards.md R119,
spec/42_row_emitter.md R83 to R85). -/
structure SinkInv (s : State) : Prop where
  /-- Nothing before EMIT. -/
  before_decoded : reachedPhase s = .idle ∨ reachedPhase s = .loading → s.sinkSent = []
  /-- Nothing in DECODED, nor after a fault taken there that is not EMIT's own. -/
  not_emitted : reachedPhase s = .decoded → ¬ (s.phase = .error ∧ (s.err = .io ∨ s.err = .encode)) → s.sinkSent = []
  /-- After an IoError: the rows counted by ROWCNT accepted, the next row refused, nothing more. -/
  row_failed : s.phase = .error → s.fphase = .decoded → s.err = .io → ∃ rows bytes,
    rows.length = s.rowCnt.toNat ∧ rows.length < s.height.toNat ∧ RowsOf s rows ∧ RowOf s rows.length bytes ∧
    s.sinkSent = rows.map rowAccepted ++ [rowRefused bytes]
  /-- After an EncodeError: every row accepted, the end-of-image signal refused. -/
  end_failed : s.phase = .error → s.fphase = .decoded → s.err = .encode → ∃ rows,
    rows.length = s.height.toNat ∧ RowsOf s rows ∧ s.sinkSent = rows.map rowAccepted ++ [endAnswered .fail]
  /-- In DONE, and after a CmdError taken there: exactly HEIGHT rows and one end-of-image signal accepted. -/
  complete : reachedPhase s = .done → ∃ rows,
    rows.length = s.height.toNat ∧ RowsOf s rows ∧ s.sinkSent = rows.map rowAccepted ++ [endAnswered .ok]

/-- `n` steps one after the other, up to the first that gives no next state. -/
def runSteps : Nat → State → Result
  | 0, s => .next s
  | n + 1, s =>
    match step s with
    | .next t => runSteps n t
    | r => r

/-- The host presents these commands one after the other (spec/30_encoding.md R49). -/
def presented (is : List Instr) : List HostEvent := is.map fun i => .command (encode i)

/-- A run has ended well (spec/40_run_control.md R69). -/
def endedWell (s : State) : Bool := s.phase = .done

/-- A run has ended badly (R69). -/
def endedBadly (s : State) : Bool := s.phase = .error

end Sys2Proof.Machine
end

