-- ==== Sys2Proof/Certificates/Slice0/Obligations.lean ====
section
/-! DEFINITION. The statements for the provers, each a rule of the spec about every state, every word or every operand. -/

open Sys2Proof Sys2Proof.Machine

/-! ### Encoding -/

/-- spec/30_encoding.md R51 to R53: a well-formed command's word decodes to that command, with every operand. -/
def Obligations.DecodeOfEncode : Prop :=
  ∀ i : Instr, i.wellFormed = true → decode (encode i) = .ok i

/-- R52, R53: a word that decodes to a command is that command's word and no other, and the command is well-formed. -/
def Obligations.EncodeOfDecodedWord : Prop :=
  ∀ (w : PortWord) (i : Instr), decode w = .ok i → i.wellFormed = true ∧ encode i = w

/-- R52: a word decodes to a command exactly when it is selected by a row of the opcode map, `(w & mask) = match` and for RD
also `w[7:0] <= 8`, and then to a command of that row. -/
def Obligations.DecodeFollowsOpcodeMap : Prop :=
  ∀ w : PortWord,
    (∀ i, decode w = .ok i → w &&& rowMask i = rowMatch i ∧ ((∃ n, i = .rd n) → w.toNat % 256 ≤ 8)) ∧
    (∀ j : Instr, w &&& rowMask j = rowMatch j → ((∃ n, j = .rd n) → w.toNat % 256 ≤ 8) →
      ∃ i, decode w = .ok i ∧ rowMatch i = rowMatch j ∧ rowMask i = rowMask j)

/-- R54, R55: every illegal word is rejected by the name of what is wrong with it: a reserved opcode, a nonzero
must-be-zero bit of ARG, a register number above 8. -/
def Obligations.IllegalWordsAreNamed : Prop :=
  ∀ (op : Byte) (arg : Word32),
    (op.toNat = 0 ∨ 11 ≤ op.toNat → decode (packWord op arg) = .error .reservedOpcode) ∧
    ((op = 4 ∨ op = 6 ∨ op = 7 ∨ op = 10) ∧ arg ≠ 0 → decode (packWord op arg) = .error .argNotZero) ∧
    (op = 3 ∧ 2 ≤ arg.toNat → decode (packWord op arg) = .error .argNotZero) ∧
    ((op = 5 ∨ op = 8) ∧ 256 ≤ arg.toNat → decode (packWord op arg) = .error .argNotZero) ∧
    (op = 8 ∧ 9 ≤ arg.toNat ∧ arg.toNat < 256 → decode (packWord op arg) = .error .noSuchRegister)

/-- Words of spec/95_test_vectors.md decode to the commands they stand for, one of each family and of each operand form. -/
def Obligations.SpecWordsDecode : Prop :=
  decode 0x0100000002 = .ok (.setw 2) ∧ decode 0x01FFFFFFFF = .ok (.setw 0xFFFFFFFF) ∧
  decode 0x0200000001 = .ok (.seth 1) ∧ decode 0x0300000001 = .ok (.setbe true) ∧
  decode 0x0400000000 = .ok .start ∧ decode 0x05000000FF = .ok (.push 0xFF) ∧
  decode 0x0600000000 = .ok .decode ∧ decode 0x0700000000 = .ok .emit ∧
  decode 0x0800000008 = .ok (.rd 8) ∧ decode 0x09FFFFFFFF = .ok (.rdpx 0xFFFFFFFF) ∧
  decode 0x0A00000000 = .ok .reset ∧ decode 0x0800000009 = .error .noSuchRegister

/-- R57: a program text yields words only, and every one of them is legal: the syntax cannot spell an illegal encoding. -/
def Obligations.TextSpellsLegalWordsOnly : Prop :=
  ∀ (lines : List (List Char)) (ws : List PortWord), assembleWords lines = some ws →
    ∀ w, w ∈ ws → ∃ i, decode w = .ok i ∧ encode i = w

/-- R58: the four expansions, and what `word16` makes of the two bytes that PUSHW.LE and PUSHW.BE push. -/
def Obligations.PseudoCommandsExpand : Prop :=
  (∀ w h be, configCommands w h be = [.setw w, .seth h, .setbe be]) ∧
  (∀ bs : List Byte, (pushCommands bs).length = bs.length ∧
    ∀ (k : Nat) (b : Byte), bs[k]? = some b → (pushCommands bs)[k]? = some (Instr.push b)) ∧
  ∀ v : Word16, ∃ lo hi : Byte, lo.toNat = v.toNat % 256 ∧ hi.toNat = v.toNat / 256 ∧
    pushWordLe v = [.push lo, .push hi] ∧ pushWordBe v = [.push hi, .push lo] ∧
    word16 lo hi false = v ∧ word16 hi lo true = v

/-! ### The step -/

/-- R49, R60: the word at the head of the host's list, when it decodes to a command, runs as that command, with the word
used up and the response port cleared. That the host's words stand in a list which a step consumes is the model's choice (log 1). -/
def Obligations.StepRunsDecodedCommand : Prop :=
  ∀ (s : State) (w : PortWord) (rest : List HostEvent) (i : Instr),
    s.hostQueue = .command w :: rest → decode w = .ok i →
    step s = exec i { s with hostQueue := rest, response := none }

/-- R55: an illegal word takes the fault CmdError with response `(0x05, 0)`; in phase ERROR it changes nothing and is
answered `(ERR, 0)`. The list of the host's words is the model's choice (log 1). -/
def Obligations.IllegalWordTakesCmdError : Prop :=
  ∀ (s : State) (w : PortWord) (rest : List HostEvent) (e : Illegal),
    s.hostQueue = .command w :: rest → decode w = .error e →
    (s.phase ≠ .error → step s = .next (faulted .cmd 5 { s with hostQueue := rest })) ∧
    (s.phase = .error → step s = .next (refusedInError { s with hostQueue := rest }))

/-- R116: with nothing presented the block waits, in every phase, and the model's step changes nothing (log 1: that a waiting
block is a step at all is the model's choice). -/
def Obligations.WaitingChangesNothing : Prop :=
  ∀ s : State, s.hostQueue = [] → step s = .next s

/-! ### Reset -/

/-- R27: the state after power-on, after an accepted RESET and after a hardware reset. That a cell without a value is an absent
cell is the model's choice among those R27 allows (log 5), that nothing has been sent in the new run is its record (log 8). -/
def Obligations.ResetLeavesResetValues : Prop :=
  ResetValues State.reset ∧ State.reset.response = none ∧
  (∀ s, ∃ t, exec .reset s = .next t ∧ ResetValues t) ∧
  (∀ s rest, s.hostQueue = .hardReset :: rest → ∃ t, step s = .next t ∧ ResetValues t ∧ t.response = none)

/-- R67: RESET in every phase: the registers cleared, every memory cell without a value, OK answered, and nothing sent to the
sink: what the sink port has seen, what the host and the sink have yet to do and MAXPIX are as they were (the model's choices of
log 1, 2, 3, 5 and 8 stand behind these fields). -/
def Obligations.ResetCommand : Prop :=
  encode .reset = 0x0A00000000 ∧
  (∀ arg : Word32, arg ≠ 0 → decode (packWord 0x0A arg) = .error .argNotZero) ∧
  ∀ s : State, ∃ t, exec .reset s = .next t ∧ ResetValues t ∧ t.response = some 0 ∧
    sinkHistory t = sinkHistory s ∧ t.hostQueue = s.hostQueue ∧ t.sinkReplies = s.sinkReplies ∧ t.lastPixel = s.lastPixel

/-- R115: a hardware reset and a RESET command leave the same state; of the two, the command alone is answered (log 7: the hardware reset as an event of the host's list is the model's). -/
def Obligations.HardResetAgreesWithResetCommand : Prop :=
  ∀ (s t : State) (rest : List HostEvent), step { s with hostQueue := .hardReset :: rest } = .next t →
    step { s with hostQueue := .command (encode .reset) :: rest } = .next { t with response := some 0 }

/-! ### Configuration and START -/

/-- spec/40_run_control.md R61: SETW writes WIDTH in IDLE and nothing else but the response; elsewhere CmdError, in ERROR the
stored kind. -/
def Obligations.SetwWritesWidth : Prop :=
  ∀ (v : Word32) (s : State),
    (encode (.setw v)).toNat = 0x01 * 2 ^ 32 + v.toNat ∧
    (s.phase = .idle → exec (.setw v) s = .next { s with width := v, response := some 0 }) ∧
    (s.phase ≠ .idle ∧ s.phase ≠ .error → exec (.setw v) s = .next (faulted .cmd 5 s)) ∧
    (s.phase = .error → exec (.setw v) s = .next (refusedInError s))

/-- R62: SETH, as SETW for HEIGHT. -/
def Obligations.SethWritesHeight : Prop :=
  ∀ (v : Word32) (s : State),
    (encode (.seth v)).toNat = 0x02 * 2 ^ 32 + v.toNat ∧
    (s.phase = .idle → exec (.seth v) s = .next { s with height := v, response := some 0 }) ∧
    (s.phase ≠ .idle ∧ s.phase ≠ .error → exec (.seth v) s = .next (faulted .cmd 5 s)) ∧
    (s.phase = .error → exec (.seth v) s = .next (refusedInError s))

/-- R63: SETBE writes CTRL.BE in IDLE; a word with ARG[31:1] nonzero is no SETBE. -/
def Obligations.SetbeWritesByteOrder : Prop :=
  (∀ arg : Word32, 2 ≤ arg.toNat → decode (packWord 0x03 arg) = .error .argNotZero) ∧
  ∀ (b : Bool) (s : State),
    (encode (.setbe b)).toNat = 0x03 * 2 ^ 32 + (if b then 1 else 0) ∧
    (s.phase = .idle → exec (.setbe b) s = .next { s with be := b, response := some 0 }) ∧
    (s.phase ≠ .idle ∧ s.phase ≠ .error → exec (.setbe b) s = .next (faulted .cmd 5 s)) ∧
    (s.phase = .error → exec (.setbe b) s = .next (refusedInError s))

/-- R64: START, in unbounded arithmetic: ConfigError on a zero dimension or on a product above MAXPIX, else EXPLEN holds
`2*WIDTH*HEIGHT` exactly, RAWLEN 0, phase LOADING, and nothing else changes but the response. No other command takes a
ConfigError, so START alone validates the dimensions. -/
def Obligations.StartValidatesDimensions : Prop :=
  encode .start = 0x0400000000 ∧
  ∀ s : State,
    (s.phase = .idle → s.width.toNat = 0 ∨ s.height.toNat = 0 ∨ maxPix s < s.width.toNat * s.height.toNat →
      exec .start s = .next (faulted .config 1 s)) ∧
    (s.phase = .idle → 1 ≤ s.width.toNat → 1 ≤ s.height.toNat → s.width.toNat * s.height.toNat ≤ maxPix s →
      ∃ e : Word64, e.toNat = 2 * (s.width.toNat * s.height.toNat) ∧
        exec .start s = .next { s with expLen := e, rawLen := 0, phase := .loading, response := some 0 }) ∧
    (s.phase ≠ .idle ∧ s.phase ≠ .error → exec .start s = .next (faulted .cmd 5 s)) ∧
    (s.phase = .error → exec .start s = .next (refusedInError s)) ∧
    ∀ (i : Instr) (t : State), exec i s = .next t → s.phase ≠ .error → t.phase = .error → t.err = .config → i = .start

/-! ### The Decoder -/

/-- spec/41_decoder.md R70: PUSH in LOADING. Below EXPLEN the byte lands at RAW[RAWLEN] and no other cell changes; from EXPLEN
on it is dropped; in both cases it is counted, up to `2^64 - 1`. The premise `EXPLEN <= 2*MAXPIX` is spec/10_state.md R21. -/
def Obligations.PushStoresAndCounts : Prop :=
  ∀ (b : Byte) (s : State),
    (encode (.push b)).toNat = 0x05 * 2 ^ 32 + b.toNat ∧
    (∀ arg : Word32, 256 ≤ arg.toNat → decode (packWord 0x05 arg) = .error .argNotZero) ∧
    (s.phase = .loading → s.rawLen.toNat < s.expLen.toNat → s.expLen.toNat ≤ rawCap s →
      ∃ t : State, exec (.push b) s = .next t ∧
        t = { s with raw := t.raw, rawLen := s.rawLen + 1, response := some 0 } ∧
        t.rawLen.toNat = s.rawLen.toNat + 1 ∧
        ∀ a, Memory.read t.raw a = if a = s.rawLen.toNat then some b else Memory.read s.raw a) ∧
    (s.phase = .loading → s.expLen.toNat ≤ s.rawLen.toNat →
      ∃ n : Word64, n.toNat = min (s.rawLen.toNat + 1) (2 ^ 64 - 1) ∧
        exec (.push b) s = .next { s with rawLen := n, response := some 0 }) ∧
    (s.phase ≠ .loading ∧ s.phase ≠ .error → exec (.push b) s = .next (faulted .cmd 5 s)) ∧
    (s.phase = .error → exec (.push b) s = .next (refusedInError s))

/-- R71: DECODE in LOADING. A wrong length is FormatError with nothing decoded; else every pixel below WIDTH*HEIGHT is the
`decode_pixel` of its own two bytes, no cell at or above is touched, and PHASE is DECODED. The premise `RawWhole` holds in
every state of `StateInv`. -/
def Obligations.DecodeFillsRaster : Prop :=
  encode .decode = 0x0600000000 ∧
  ∀ s : State,
    (s.phase = .loading → s.rawLen ≠ s.expLen → exec .decode s = .next (faulted .format 3 s)) ∧
    (s.phase = .loading → s.rawLen = s.expLen → RawWhole s →
      ∃ t : State, exec .decode s = .next t ∧
        t = { s with raster := t.raster, phase := .decoded, response := some 0 } ∧
        (∀ i b0 b1, i < pixelCount s → Memory.read s.raw (2 * i) = some b0 → Memory.read s.raw (2 * i + 1) = some b1 →
          Memory.read t.raster i = some (decodePixel b0 b1 s.be)) ∧
        ∀ i, pixelCount s ≤ i → Memory.read t.raster i = Memory.read s.raster i) ∧
    (s.phase ≠ .loading ∧ s.phase ≠ .error → exec .decode s = .next (faulted .cmd 5 s)) ∧
    (s.phase = .error → exec .decode s = .next (refusedInError s))

/-- spec/20_memory.md R33: `word16` in both byte orders, and the byte swap between them. -/
def Obligations.WordOfTwoBytes : Prop :=
  ∀ b0 b1 : Byte,
    (word16 b0 b1 false).toNat = b1.toNat * 256 + b0.toNat ∧
    (word16 b0 b1 true).toNat = b0.toNat * 256 + b1.toNat ∧
    word16 b0 b1 true = word16 b1 b0 false

/-- R72: the four fields of a word, and the word from its four fields. -/
def Obligations.UnpackCoversTheWord : Prop :=
  ∀ w : Word16,
    (unpack5551 w).red5.toNat = w.toNat / 2048 ∧ (unpack5551 w).green5.toNat = w.toNat / 64 % 32 ∧
    (unpack5551 w).blue5.toNat = w.toNat / 2 % 32 ∧ (unpack5551 w).alpha1.toNat = w.toNat % 2 ∧
    w.toNat = (unpack5551 w).red5.toNat * 2048 + (unpack5551 w).green5.toNat * 64 +
      (unpack5551 w).blue5.toNat * 2 + (unpack5551 w).alpha1.toNat

/-- R73, R74, R75: `decode_pixel` as one formula over natural numbers, from the two stored bytes and BE to the four
channels. -/
def Obligations.DecodePixelFormula : Prop :=
  ∀ (b0 b1 : Byte) (be : Bool), ∃ w : Nat,
    w = (if be then b0.toNat * 256 + b1.toNat else b1.toNat * 256 + b0.toNat) ∧
    (decodePixel b0 b1 be).red.toNat = (w / 2048 * 255 + 15) / 31 ∧
    (decodePixel b0 b1 be).green.toNat = (w / 64 % 32 * 255 + 15) / 31 ∧
    (decodePixel b0 b1 be).blue.toNat = (w / 2 % 32 * 255 + 15) / 31 ∧
    (decodePixel b0 b1 be).alpha.toNat = w % 2 * 255

/-- R78: the six properties the spec asks a model to prove; the last clause is what item 1 says of a raw buffer of zeros. -/
def Obligations.PixelLaws : Prop :=
  (∀ be, decodePixel 0 0 be = ⟨0, 0, 0, 0⟩) ∧ (∀ be, decodePixel 0xFF 0xFF be = ⟨255, 255, 255, 255⟩) ∧
  (∀ v1 v2 : BitVec 5, v1.toNat < v2.toNat → (rescale5 v1).toNat < (rescale5 v2).toNat) ∧
  rescale5 0 = 0 ∧ rescale5 31 = 255 ∧
  (∀ b0 b1 : Byte, decodePixel b0 b1 false = decodePixel b1 b0 true ∧
    (decodePixel b0 b1 false).alpha.toNat = 255 * (b0.toNat % 2) ∧
    (decodePixel b0 b1 true).alpha.toNat = 255 * (b1.toNat % 2)) ∧
  ∀ s : State, s.phase = .loading → s.rawLen = s.expLen → pixelCount s ≤ maxPix s →
    (∀ a, a < 2 * pixelCount s → Memory.read s.raw a = some 0) →
    ∃ t, exec .decode s = .next t ∧ ∀ i, i < pixelCount s → Memory.read t.raster i = some ⟨0, 0, 0, 0⟩

/-- spec/43_readback.md R92, spec/42_row_emitter.md R82: byte c of `pack_rgba32(p)` is the c-th byte of the pixel in a row. -/
def Obligations.PackFollowsRowOrder : Prop :=
  ∀ p : Pixel, p.channels = [p.red, p.green, p.blue, p.alpha] ∧
    (packRgba32 p).toNat = p.alpha.toNat * 2 ^ 24 + p.blue.toNat * 2 ^ 16 + p.green.toNat * 2 ^ 8 + p.red.toNat

/-! ### The Row Emitter -/

/-- spec/42_row_emitter.md R80, R83: EMIT in DECODED with a sink that accepts everything: HEIGHT rows, top row first, each the
row R82 describes, then one end-of-image signal; ROWCNT is HEIGHT, PHASE is DONE, the last row stands in ROWBUF, and nothing
else changes. -/
def Obligations.EmitSucceeds : Prop :=
  ∀ (s : State) (rest : List SinkReply), s.phase = .decoded → RasterWhole s →
    s.sinkReplies = List.replicate (s.height.toNat + 1) (.answer .ok) ++ rest →
    ∃ (rows : List (List Byte)) (t : State), rows.length = s.height.toNat ∧ RowsOf s rows ∧
      exec .emit s = .next t ∧ RowBufAfter s rows t.rowBuf ∧
      t = { s with
        rowCnt := s.height, phase := .done, response := some 0, rowBuf := t.rowBuf, sinkReplies := rest,
        sinkSent := s.sinkSent ++ rows.map rowAccepted ++ [endAnswered .ok] }

/-- R86: on success the rows, one after the other, are the Raster's pixels flattened in (red, green, blue, alpha) order,
`4*WIDTH*HEIGHT` bytes in all. -/
def Obligations.EmittedBytesAreTheRaster : Prop :=
  ∀ (s : State) (rest : List SinkReply), s.phase = .decoded → RasterWhole s →
    s.sinkReplies = List.replicate (s.height.toNat + 1) (.answer .ok) ++ rest →
    ∃ (rows : List (List Byte)) (t : State), exec .emit s = .next t ∧
      t.sinkSent = s.sinkSent ++ rows.map rowAccepted ++ [endAnswered .ok] ∧ rows.length = s.height.toNat ∧
      rows.flatten.length = 4 * s.width.toNat * s.height.toNat ∧
      ∀ i, i < pixelCount s → ∃ p, Memory.read s.raster i = some p ∧
        rows.flatten[4 * i]? = some p.red ∧ rows.flatten[4 * i + 1]? = some p.green ∧
        rows.flatten[4 * i + 2]? = some p.blue ∧ rows.flatten[4 * i + 3]? = some p.alpha

/-- R84: the sink refuses row y: rows 0 to y-1 accepted, row y refused, nothing more sent, ROWCNT = y, IoError; the registers and
memories are otherwise as they were but for ROWBUF. -/
def Obligations.EmitAbortsOnRefusedRow : Prop :=
  ∀ (s : State) (y : Nat) (rest : List SinkReply), s.phase = .decoded → RasterWhole s → y < s.height.toNat →
    s.sinkReplies = List.replicate y (.answer .ok) ++ .answer .fail :: rest →
    ∃ (rows : List (List Byte)) (bytes : List Byte) (t : State), rows.length = y ∧ RowsOf s rows ∧ RowOf s y bytes ∧
      exec .emit s = .next t ∧ RowBufAfter s (rows ++ [bytes]) t.rowBuf ∧
      t = { s with
        rowCnt := BitVec.ofNat 32 y, phase := .error, err := .io, fphase := .decoded,
        response := some 0x0200000000, rowBuf := t.rowBuf, sinkReplies := rest,
        sinkSent := s.sinkSent ++ rows.map rowAccepted ++ [rowRefused bytes] }

/-- R85: the sink refuses the end-of-image signal: EncodeError, ROWCNT = HEIGHT, PHASE is ERROR, no second signal. -/
def Obligations.EmitRefusedAtTheEnd : Prop :=
  ∀ (s : State) (rest : List SinkReply), s.phase = .decoded → RasterWhole s →
    s.sinkReplies = List.replicate s.height.toNat (.answer .ok) ++ .answer .fail :: rest →
    ∃ (rows : List (List Byte)) (t : State), rows.length = s.height.toNat ∧ RowsOf s rows ∧
      exec .emit s = .next t ∧ RowBufAfter s rows t.rowBuf ∧
      t = { s with
        rowCnt := s.height, phase := .error, err := .encode, fphase := .decoded,
        response := some 0x0400000000, rowBuf := t.rowBuf, sinkReplies := rest,
        sinkSent := s.sinkSent ++ rows.map rowAccepted ++ [endAnswered .fail] }

/-- R87: a sink that stops answering: EMIT has no step. That this stuck state is the fault `sinkSilent` is the model's choice
(log 2). -/
def Obligations.EmitHangsOnSilentSink : Prop :=
  ∀ (s : State) (k : Nat), s.phase = .decoded → RasterWhole s → k ≤ s.height.toNat →
    s.sinkReplies = List.replicate k (.answer .ok) → exec .emit s = .fault .sinkSilent

/-- spec/70_reset_and_hazards.md R117: a hardware reset while a transaction of EMIT is outstanding, or right after its answer:
the reset state without a response; the answered transactions stand, the outstanding one is recorded without an answer (log 7:
how a reset reaches EMIT, and this record, are the model's choice). -/
def Obligations.HardResetDuringEmit : Prop :=
  ∀ (s : State) (k : Nat) (x : SinkReply) (a : Option SinkAnswer) (rest : List SinkReply),
    s.phase = .decoded → RasterWhole s → k ≤ s.height.toNat →
    s.sinkReplies = List.replicate k (.answer .ok) ++ x :: rest →
    (x = .resetFirst ∧ a = none) ∨ (∃ b, x = .answerThenReset b ∧ a = some b) →
    ∃ (rows : List (List Byte)) (q : SinkRequest) (t : State), rows.length = k ∧ RowsOf s rows ∧
      (k = s.height.toNat → q = .endOfImage) ∧ (k < s.height.toNat → ∃ bytes, q = .row bytes ∧ RowOf s k bytes) ∧
      exec .emit s = .next t ∧ ResetValues t ∧ t.response = none ∧
      sinkHistory t = sinkHistory s ++ rows.map rowAccepted ++ [{ request := q, answer := a }] ∧
      t.sinkReplies = rest ∧ t.hostQueue = s.hostQueue ∧ t.lastPixel = s.lastPixel

/-- R83: in every case, success or not, EMIT sends rows in order from the top, none twice and none skipped, and the
end-of-image signal at most once and only after all HEIGHT rows were accepted. -/
def Obligations.EmitSendsRowsInOrder : Prop :=
  ∀ s t : State, s.phase = .decoded → exec .emit s = .next t →
    ∃ (rows : List (List Byte)) (last : SinkTxn), RowsOf s rows ∧ rows.length ≤ s.height.toNat ∧
      sinkHistory t = sinkHistory s ++ rows.map rowAccepted ++ [last] ∧
      ((rows.length < s.height.toNat ∧ ∃ bytes, last.request = .row bytes ∧ RowOf s rows.length bytes) ∨
       (rows.length = s.height.toNat ∧ last.request = .endOfImage))

/-- R80, R60: what EMIT may change in every case where it gives a next state: outside DECODED nothing but STATUS and the
response; in DECODED, unless a hardware reset ends it, never CTRL, WIDTH, HEIGHT, RAWLEN, EXPLEN, RAW or RASTER, and of ROWBUF
only the cells below `4*WIDTH`. -/
def Obligations.EmitFrame : Prop :=
  ∀ s t : State, exec .emit s = .next t →
    (s.phase ≠ .decoded → s.phase ≠ .error → t = faulted .cmd 5 s) ∧
    (s.phase = .error → t = refusedInError s) ∧
    (s.phase = .decoded → (ResetValues t ∧ t.response = none) ∨
      (t.be = s.be ∧ t.width = s.width ∧ t.height = s.height ∧ t.rawLen = s.rawLen ∧ t.expLen = s.expLen ∧
       t.raw = s.raw ∧ t.raster = s.raster ∧ t.sinkPast = s.sinkPast ∧
       ∀ a, 4 * s.width.toNat ≤ a → Memory.read t.rowBuf a = Memory.read s.rowBuf a))

/-! ### Read-back -/

/-- spec/43_readback.md R90, spec/10_state.md R13, R15: what RD answers for each register number, in every phase, with nothing
else changed. -/
def Obligations.RdAnswersTheRegister : Prop :=
  ∀ (n : Byte) (s : State),
    (encode (.rd n)).toNat = 0x08 * 2 ^ 32 + n.toNat ∧
    (n.toNat ≤ 8 → exec (.rd n) s = .next { s with response := some (BitVec.ofNat 40 (
      if n = 0 then (if s.be then 1 else 0)
      else if n = 1 then s.width.toNat
      else if n = 2 then s.height.toNat
      else if n = 3 then s.phase.code.toNat + 2 ^ 8 * s.err.code.toNat + 2 ^ 16 * s.fphase.code.toNat
      else if n = 4 then s.rawLen.toNat % 2 ^ 32
      else if n = 5 then s.rawLen.toNat / 2 ^ 32
      else if n = 6 then s.expLen.toNat % 2 ^ 32
      else if n = 7 then s.expLen.toNat / 2 ^ 32
      else s.rowCnt.toNat)) }) ∧
    (9 ≤ n.toNat → decode (encode (.rd n)) = .error .noSuchRegister) ∧
    ∀ arg : Word32, 256 ≤ arg.toNat → decode (packWord 0x08 arg) = .error .argNotZero

/-- R15, R16, R50: the codes of the phases and of the error kinds as STATUS and the responses show them. -/
def Obligations.StatusCodes : Prop :=
  [Phase.idle, .loading, .decoded, .done, .error].map (fun p => p.code.toNat) = [0, 1, 2, 3, 4] ∧
  [Err.noErr, .config, .io, .format, .encode, .cmd].map (fun e => e.code.toNat) = [0, 1, 2, 3, 4, 5] ∧
  [RespCode.ok, .kind .config, .kind .io, .kind .format, .kind .encode, .kind .cmd, .noData].map
    (fun c => c.byte.toNat) = [0, 1, 2, 3, 4, 5, 6]

/-- R91: RDPX answers the pixel when this run's Raster is valid and the index is below WIDTH*HEIGHT, else NoData, in every
phase, with nothing else changed. The premise `RasterWhole` holds in every state of `StateInv` in which the Raster is valid. -/
def Obligations.RdpxAnswersThePixel : Prop :=
  ∀ (i : Word32) (s : State),
    (encode (.rdpx i)).toNat = 0x09 * 2 ^ 32 + i.toNat ∧
    (s.phase = .decoded ∨ s.phase = .done ∨ (s.phase = .error ∧ (s.fphase = .decoded ∨ s.fphase = .done)) →
      i.toNat < s.width.toNat * s.height.toNat → RasterWhole s →
      ∃ p, Memory.read s.raster i.toNat = some p ∧
        exec (.rdpx i) s = .next { s with response := some (BitVec.ofNat 40 (packRgba32 p).toNat) }) ∧
    (¬ (s.phase = .decoded ∨ s.phase = .done ∨ (s.phase = .error ∧ (s.fphase = .decoded ∨ s.fphase = .done))) ∨
      s.width.toNat * s.height.toNat ≤ i.toNat →
      exec (.rdpx i) s = .next { s with response := some 0x0600000000 })

/-- R93: RD and RDPX change nothing but the response, make no sink transaction, are never a CmdError, and two equal reads in a
row give equal answers. -/
def Obligations.ReadBackChangesNothing : Prop :=
  ∀ (i : Instr) (s t : State), i.wellFormed = true → (∃ n, i = .rd n) ∨ (∃ j, i = .rdpx j) → exec i s = .next t →
    (∃ r : PortWord, t = { s with response := some r } ∧ r.toNat / 2 ^ 32 ≠ 5) ∧ exec i t = .next t

/-! ### Phases and faults -/

/-- R60, spec/60_exceptions.md R99: a command that is not accepted in the phase, outside phase ERROR, takes the fault
CmdError. -/
def Obligations.CommandOutOfPhase : Prop :=
  ∀ (i : Instr) (s : State) (p : Phase), homePhase i = some p → s.phase ≠ p → s.phase ≠ .error →
    exec i s = .next (faulted .cmd 5 s)

/-- R101: in phase ERROR every word but a well-formed RD, RDPX or RESET, legal or illegal, changes nothing and is answered
`(ERR, 0)`. -/
def Obligations.ErrorPhaseRefusesWork : Prop :=
  ∀ (s : State) (w : PortWord) (rest : List HostEvent), s.phase = .error → s.hostQueue = .command w :: rest →
    (∀ i, decode w = .ok i → anyPhase i = false) →
    step s = .next (refusedInError { s with hostQueue := rest })

/-- R100: fault entry: FPHASE takes PHASE, ERR the kind, PHASE is ERROR, the response is `(k, 0)`, and nothing else changes. -/
def Obligations.FaultEntry : Prop :=
  ∀ (k : Err) (s : State), takeFault k s =
    { s with fphase := s.phase, err := k, phase := .error, response := some (BitVec.ofNat 40 (k.code.toNat * 2 ^ 32)) }

/-- R16, R106: once a fault is taken, ERR, FPHASE and PHASE stay until a reset. -/
def Obligations.FirstFaultIsKept : Prop :=
  ∀ s t : State, s.phase = .error → step s = .next t →
    (t.phase = .error ∧ t.err = s.err ∧ t.fphase = s.fphase) ∨ ResetValues t

/-- R65: the complete set of changes of PHASE, each by its command and under its condition. -/
def Obligations.PhaseChanges : Prop :=
  ∀ (i : Instr) (s t : State), exec i s = .next t → t.phase ≠ s.phase →
    (s.phase = .idle ∧ t.phase = .loading ∧ i = .start ∧
      1 ≤ s.width.toNat ∧ 1 ≤ s.height.toNat ∧ s.width.toNat * s.height.toNat ≤ maxPix s) ∨
    (s.phase = .loading ∧ t.phase = .decoded ∧ i = .decode ∧ s.rawLen = s.expLen) ∨
    (s.phase = .decoded ∧ t.phase = .done ∧ i = .emit ∧ ∃ rows : List (List Byte), rows.length = s.height.toNat ∧
      t.sinkSent = s.sinkSent ++ rows.map rowAccepted ++ [endAnswered .ok]) ∨
    (s.phase ≠ .error ∧ t.phase = .error) ∨
    (t.phase = .idle ∧ ResetValues t ∧ (i = .reset ∨ (i = .emit ∧ t.response = none)))

/-- R65 at the level of steps: no step makes a change of PHASE that the table does not list. -/
def Obligations.StepMovesPhaseForward : Prop :=
  ∀ s t : State, step s = .next t → phaseMove s.phase t.phase

/-- R14, R28 item 7: CTRL, WIDTH and HEIGHT do not change while PHASE is not IDLE. -/
def Obligations.ConfigurationIsFrozen : Prop :=
  ∀ s t : State, step s = .next t → s.phase ≠ .idle → t.phase ≠ .idle →
    t.be = s.be ∧ t.width = s.width ∧ t.height = s.height

/-- R102: the kind of fault tells which command took it, in which phase, on which condition, and what was recorded: the summary
table, for the commands (an illegal word is `IllegalWordTakesCmdError`). A CmdError is taken by no RD, RDPX or RESET: a term
`rd n` with n above 8, which is not well-formed, is the illegal word R90 says it is (the term is the model's, log 10). -/
def Obligations.FaultsByCommandAndPhase : Prop :=
  ∀ (i : Instr) (s t : State), exec i s = .next t → s.phase ≠ .error → t.phase = .error →
    t.fphase = s.phase ∧
    (t.width = s.width ∧ t.height = s.height ∧ t.rawLen = s.rawLen ∧ t.expLen = s.expLen) ∧
    ((t.err = .config ∧ i = .start ∧ s.phase = .idle ∧
       (s.width.toNat = 0 ∨ s.height.toNat = 0 ∨ maxPix s < s.width.toNat * s.height.toNat)) ∨
     (t.err = .io ∧ i = .emit ∧ s.phase = .decoded ∧
       ∃ bytes, t.sinkSent.getLast? = some (rowRefused bytes) ∧ RowOf s t.rowCnt.toNat bytes) ∨
     (t.err = .format ∧ i = .decode ∧ s.phase = .loading ∧ s.rawLen ≠ s.expLen) ∨
     (t.err = .encode ∧ i = .emit ∧ s.phase = .decoded ∧ t.sinkSent.getLast? = some (endAnswered .fail) ∧
       t.rowCnt = s.height) ∨
     (t.err = .cmd ∧ homePhase i ≠ some s.phase ∧ (anyPhase i = false ∨ i.wellFormed = false)))

/-! ### The command port and the sink port -/

/-- R50, R122: every command that gives a next state has been answered with a code from 0 to 6, unless a hardware reset ended an
EMIT. -/
def Obligations.EveryCommandIsAnswered : Prop :=
  ∀ (i : Instr) (s t : State), exec i s = .next t →
    (∃ r : PortWord, t.response = some r ∧ r.toNat / 2 ^ 32 ≤ 6) ∨ (i = .emit ∧ t.response = none ∧ ResetValues t)

/-- R116, R93, R101, R67: the sink port is used by an EMIT in DECODED alone. -/
def Obligations.OnlyEmitUsesTheSinkPort : Prop :=
  ∀ (i : Instr) (s t : State), exec i s = .next t → i ≠ .emit ∨ s.phase ≠ .decoded →
    sinkHistory t = sinkHistory s ∧ t.sinkReplies = s.sinkReplies

/-- R26, R49: no command reaches what the host has yet to present, or MAXPIX. -/
def Obligations.CommandsLeaveTheHostAlone : Prop :=
  ∀ (i : Instr) (s t : State), exec i s = .next t → t.hostQueue = s.hostQueue ∧ t.lastPixel = s.lastPixel

/-- R117: the sink keeps what it was sent: no step takes back a transaction. -/
def Obligations.SinkHistoryOnlyGrows : Prop :=
  ∀ s t : State, step s = .next t → ∃ new, sinkHistory t = sinkHistory s ++ new

/-! ### Memories -/

/-- The canonical form is one: two canonical memories that read alike are equal data. -/
def Obligations.CanonicalMemoriesAreEqual : Prop :=
  ∀ (α : Type) (m n : Memory α), Memory.wf m → Memory.wf n → (∀ a, Memory.read m a = Memory.read n a) → m = n

/-- R25: what stands in ROWBUF before a command has no effect on anything but ROWBUF. -/
def Obligations.RowBufIsUnobservable : Prop :=
  ∀ (i : Instr) (s : State) (buf : Memory Byte),
    (∀ t, exec i s = .next t → ∃ buf', exec i { s with rowBuf := buf } = .next { t with rowBuf := buf' }) ∧
    (∀ f, exec i s = .fault f → exec i { s with rowBuf := buf } = .fault f)

/-- R25: outside LOADING, and so after DECODE has answered, what stands in RAW has no effect on anything but RAW. -/
def Obligations.RawIsUnobservableOutsideLoading : Prop :=
  ∀ (i : Instr) (s : State) (m : Memory Byte), s.phase ≠ .loading →
    (∀ t, exec i s = .next t → ∃ m', exec i { s with raw := m } = .next { t with raw := m' }) ∧
    (∀ f, exec i s = .fault f → exec i { s with raw := m } = .fault f)

/-! ### Invariants -/

/-- R28, R44: the invariants hold after reset. -/
def Obligations.ResetMeetsInvariants : Prop := StateInv State.reset ∧ SinkInv State.reset

/-- R28, items 1, 2, 3, 5 and 6, and of item 4 that the cells are there (their contents in order of arrival are
`PushesFillRawInOrder`): every step keeps them, with the canonical form and the bounds of the memories. -/
def Obligations.StepKeepsInvariants : Prop :=
  ∀ s t : State, StateInv s → step s = .next t → StateInv t

/-- R119: every step keeps what the sink has been sent in this run in agreement with the phase. -/
def Obligations.StepKeepsSinkInvariants : Prop :=
  ∀ s t : State, SinkInv s → step s = .next t → SinkInv t

/-- R119: in phase ERROR the sink has accepted no end-of-image signal in this run, unless the fault was taken in DONE. -/
def Obligations.NoImageInPhaseError : Prop :=
  ∀ s : State, StateInv s → SinkInv s → endedBadly s = true → s.fphase ≠ .done →
    ∀ x, x ∈ s.sinkSent → x.request = .endOfImage → x.answer ≠ some .ok

/-- R44, R28: in a state of `StateInv` no index is out of range and no absent cell is read: the one way a step stops is a sink that does
not answer an EMIT, and nothing is refused. -/
def Obligations.OnlyASilentSinkStopsTheMachine : Prop :=
  ∀ s : State, StateInv s → (∀ f, step s = .fault f → f = .sinkSilent ∧ s.phase = .decoded) ∧ ∀ r, step s ≠ .refused r

/-- R123, R87: in a state of `StateInv` every well-formed command is answered, given that the sink answers: a list of answers longer
than HEIGHT is enough. -/
def Obligations.EveryCommandCompletes : Prop :=
  ∀ (i : Instr) (s : State), i.wellFormed = true → StateInv s →
    (i = .emit → s.phase = .decoded → s.height.toNat < s.sinkReplies.length) → ∃ t, exec i s = .next t

/-! ### Whole runs -/

/-- R28 item 4, R70: pushed bytes stand in RAW in the order of their arrival, from index 0 on; those from EXPLEN on are counted
and not stored, and nothing but RAW, RAWLEN and the command port changes. -/
def Obligations.PushesFillRawInOrder : Prop :=
  ∀ (bytes : List Byte) (rest : List HostEvent) (s : State),
    s.phase = .loading → s.rawLen = 0 → s.expLen.toNat ≤ rawCap s → bytes.length < 2 ^ 64 →
    s.hostQueue = presented (pushCommands bytes) ++ rest →
    ∃ t : State, runSteps bytes.length s = .next t ∧ t.rawLen.toNat = bytes.length ∧
      (∀ a, Memory.read t.raw a =
        if a < bytes.length ∧ a < s.expLen.toNat then bytes[a]? else Memory.read s.raw a) ∧
      t = { s with raw := t.raw, rawLen := t.rawLen, hostQueue := rest, response := t.response }

/-- spec/70_reset_and_hazards.md R120, R119, spec/42_row_emitter.md R86: for every image of legal size, the commands of a good
run, given right after a reset to a block whose sink accepts everything, end the run well: the sink has accepted HEIGHT rows
of `4*WIDTH` bytes and one end-of-image signal, and the rows one after the other are the decoded pixels of the raw bytes. -/
def Obligations.GoodRunDeliversTheImage : Prop :=
  ∀ (w h : Word32) (be : Bool) (bytes : List Byte) (rest : List HostEvent) (more : List SinkReply) (s : State),
    ResetValues s → 1 ≤ w.toNat → 1 ≤ h.toNat → w.toNat * h.toNat ≤ maxPix s →
    bytes.length = 2 * (w.toNat * h.toNat) →
    s.hostQueue = presented (configCommands w h be ++ .start :: pushCommands bytes ++ [.decode, .emit]) ++ rest →
    s.sinkReplies = List.replicate (h.toNat + 1) (.answer .ok) ++ more →
    ∃ (rows : List (List Byte)) (t : State), runSteps (bytes.length + 6) s = .next t ∧ endedWell t = true ∧
      t.response = some 0 ∧ t.hostQueue = rest ∧ t.sinkSent = rows.map rowAccepted ++ [endAnswered .ok] ∧
      rows.length = h.toNat ∧ (∀ bs, bs ∈ rows → bs.length = 4 * w.toNat) ∧
      ∀ i, i < w.toNat * h.toNat → ∃ b0 b1, bytes[2 * i]? = some b0 ∧ bytes[2 * i + 1]? = some b1 ∧
        rows.flatten[4 * i]? = some (decodePixel b0 b1 be).red ∧
        rows.flatten[4 * i + 1]? = some (decodePixel b0 b1 be).green ∧
        rows.flatten[4 * i + 2]? = some (decodePixel b0 b1 be).blue ∧
        rows.flatten[4 * i + 3]? = some (decodePixel b0 b1 be).alpha
end

