-- ==== Sys2Proof/Laws/Memory.lean ====
section
/-! SUPPORT. The laws of memories: reading after writing, the canonical form, the bound, and whole ranges
(spec/00_scope.md R7). -/

namespace Sys2Proof.Machine

variable {α : Type}

/-! ### One cell -/

@[simp] theorem Memory.read_nil (a : Nat) : Memory.read ([] : Memory α) a = none := rfl

theorem Memory.read_write_same (m : Memory α) (a : Nat) (v : α) : Memory.read (Memory.write m a v) a = some v := by
  induction m with
  | nil => simp [Memory.write, Memory.read]
  | cons c m ih =>
    simp only [Memory.write]
    split_ifs with h1 h2 <;> simp_all [Memory.read]

theorem Memory.read_write_other (m : Memory α) {a b : Nat} (v : α) (h : b ≠ a) :
    Memory.read (Memory.write m a v) b = Memory.read m b := by
  induction m with
  | nil => simp [Memory.write, Memory.read, h]
  | cons c m ih =>
    simp only [Memory.write]
    split_ifs with h1 h2
    · simp [Memory.read, h]
    · subst h2; simp [Memory.read, h]
    · simp only [Memory.read]; split_ifs <;> simp [ih]

theorem Memory.read_write (m : Memory α) (a b : Nat) (v : α) :
    Memory.read (Memory.write m a v) b = if b = a then some v else Memory.read m b := by
  split
  · next h => rw [h, Memory.read_write_same]
  · next h => exact Memory.read_write_other m v h

theorem Memory.mem_write {m : Memory α} {a : Nat} {v : α} {c : Nat × α} (h : c ∈ Memory.write m a v) :
    c = (a, v) ∨ c ∈ m := by
  induction m with
  | nil => simpa [Memory.write] using h
  | cons d m ih =>
    simp only [Memory.write] at h
    split_ifs at h with h1 h2 <;> simp only [List.mem_cons] at h ⊢
    · tauto
    · tauto
    · rcases h with h | h
      · tauto
      · have := ih h; tauto

/-- A write keeps the canonical form. -/
theorem Memory.wf_write {m : Memory α} (a : Nat) (v : α) (h : Memory.wf m) : Memory.wf (Memory.write m a v) := by
  induction m with
  | nil => simp [Memory.wf, Memory.write]
  | cons c m ih =>
    simp only [Memory.wf, List.map_cons, List.pairwise_cons] at h
    simp only [Memory.write]
    split_ifs with h1 h2
    · simp only [Memory.wf, List.map_cons, List.pairwise_cons]
      refine ⟨fun b hb => ?_, h⟩
      rcases List.mem_cons.1 hb with rfl | hb
      · exact h1
      · exact Nat.lt_trans h1 (h.1 b hb)
    · subst h2
      simpa only [Memory.wf, List.map_cons, List.pairwise_cons] using h
    · simp only [Memory.wf, List.map_cons, List.pairwise_cons]
      refine ⟨fun b hb => ?_, ih h.2⟩
      obtain ⟨d, hd, rfl⟩ := List.mem_map.1 hb
      rcases Memory.mem_write hd with rfl | hd
      · dsimp only at h1 h2 ⊢; omega
      · exact h.1 _ (List.mem_map_of_mem hd)

/-- A write inside the memory keeps the bound. -/
theorem Memory.within_write {cap : Nat} {m : Memory α} {a : Nat} (v : α) (ha : a < cap)
    (h : Memory.within cap m) : Memory.within cap (Memory.write m a v) := by
  intro c hc
  rcases Memory.mem_write hc with rfl | hc
  · exact ha
  · exact h c hc

theorem Memory.wf_nil : Memory.wf ([] : Memory α) := List.Pairwise.nil

theorem Memory.within_nil (cap : Nat) : Memory.within cap ([] : Memory α) := by simp [Memory.within]

/-! ### Checked access -/

theorem Memory.readCell_eq_ok {name : MemName} {cap : Nat} {m : Memory α} {a : Nat} {v : α} :
    Memory.readCell name cap m a = .ok v ↔ a < cap ∧ Memory.read m a = some v := by
  unfold Memory.readCell
  split
  · split <;> simp_all
  · simp_all

theorem Memory.writeCell_eq_ok {name : MemName} {cap : Nat} {m m' : Memory α} {a : Nat} {v : α} :
    Memory.writeCell name cap m a v = .ok m' ↔ a < cap ∧ m' = Memory.write m a v := by
  unfold Memory.writeCell
  split <;> simp_all [eq_comm]

theorem Memory.readCell_ne_sinkSilent (name : MemName) (cap : Nat) (m : Memory α) (a : Nat) :
    Memory.readCell name cap m a ≠ .error .sinkSilent := by
  unfold Memory.readCell
  split <;> [split; skip] <;> simp

/-! ### Ranges -/

theorem Memory.readRange_ne_sinkSilent (name : MemName) (cap : Nat) (m : Memory α) (a n : Nat) :
    Memory.readRange name cap m a n ≠ .error .sinkSilent := by
  induction n generalizing a with
  | zero => simp [Memory.readRange]
  | succ n ih =>
    simp only [Memory.readRange]
    split
    · next f hf =>
      intro h
      exact Memory.readCell_ne_sinkSilent name cap m a (by rw [hf]; simpa using h)
    · split
      · next f hf =>
        intro h
        exact ih (a + 1) (by rw [hf]; simpa using h)
      · simp

theorem Memory.writeRange_ne_sinkSilent (name : MemName) (cap : Nat) (m : Memory α) (a : Nat) (vs : List α) :
    Memory.writeRange name cap m a vs ≠ .error .sinkSilent := by
  induction vs generalizing m a with
  | nil => simp [Memory.writeRange]
  | cons v vs ih =>
    simp only [Memory.writeRange, Memory.writeCell]
    by_cases h : a < cap
    · simpa [h] using ih _ _
    · simp [h]

/-- What a range read answers: a list as long as the range whose entries are the cells, all of them there. -/
theorem Memory.readRange_eq_ok {name : MemName} {cap : Nat} {m : Memory α} {a n : Nat} {vs : List α} :
    Memory.readRange name cap m a n = .ok vs ↔
      vs.length = n ∧ ∀ k, k < n → a + k < cap ∧ Memory.read m (a + k) = vs[k]? := by
  induction n generalizing a vs with
  | zero => simp [Memory.readRange, eq_comm]
  | succ n ih =>
    simp only [Memory.readRange]
    constructor
    · intro h
      split at h
      · cases h
      · next v hv =>
        split at h
        · cases h
        · next ws hws =>
          cases h
          obtain ⟨h1, h2⟩ := ih.1 hws
          obtain ⟨h3, h4⟩ := Memory.readCell_eq_ok.1 hv
          refine ⟨by simp [h1], fun k hk => ?_⟩
          cases k with
          | zero => exact ⟨h3, by simpa using h4⟩
          | succ k =>
            have := h2 k (by omega)
            rw [show a + (k + 1) = a + 1 + k by omega]
            simpa using this
    · rintro ⟨h1, h2⟩
      cases vs with
      | nil => simp at h1
      | cons v ws =>
        have h0 : a < cap ∧ Memory.read m a = some v := by simpa using h2 0 (by omega)
        rw [Memory.readCell_eq_ok.2 h0]
        have : Memory.readRange name cap m (a + 1) n = .ok ws := by
          refine ih.2 ⟨by simpa using h1, fun k hk => ?_⟩
          have := h2 (k + 1) (by omega)
          rw [show a + 1 + k = a + (k + 1) by omega]
          simpa using this
        simp [this]

theorem Memory.writeRange_ok_bound {name : MemName} {cap : Nat} {m m' : Memory α} {a : Nat} {vs : List α}
    (h : Memory.writeRange name cap m a vs = .ok m') : vs = [] ∨ a + vs.length ≤ cap := by
  induction vs generalizing m a with
  | nil => simp
  | cons v vs ih =>
    simp only [Memory.writeRange] at h
    split at h
    · cases h
    · next m1 h1 =>
      have := (Memory.writeCell_eq_ok.1 h1).1
      rcases ih h with rfl | h2 <;> simp <;> omega

/-- A range write inside the memory succeeds. -/
theorem Memory.writeRange_ok {name : MemName} {cap : Nat} {a : Nat} {vs : List α} (m : Memory α)
    (h : a + vs.length ≤ cap) : ∃ m', Memory.writeRange name cap m a vs = .ok m' := by
  induction vs generalizing m a with
  | nil => exact ⟨m, rfl⟩
  | cons v vs ih =>
    simp only [List.length_cons] at h
    simp only [Memory.writeRange, Memory.writeCell_eq_ok.2 ⟨show a < cap by omega, rfl⟩]
    exact ih _ (by omega)

/-- What a range write leaves: the list in the range, everything else as it was. -/
theorem Memory.read_writeRange {name : MemName} {cap : Nat} {m m' : Memory α} {a : Nat} {vs : List α}
    (h : Memory.writeRange name cap m a vs = .ok m') (b : Nat) :
    Memory.read m' b = if a ≤ b ∧ b < a + vs.length then vs[b - a]? else Memory.read m b := by
  induction vs generalizing m a with
  | nil =>
    simp only [Memory.writeRange, Except.ok.injEq] at h
    subst h
    rw [if_neg (by simp only [List.length_nil]; omega)]
  | cons v vs ih =>
    simp only [Memory.writeRange] at h
    split at h
    · cases h
    · next m1 h1 =>
      obtain ⟨-, rfl⟩ := Memory.writeCell_eq_ok.1 h1
      rw [ih h, Memory.read_write, List.length_cons]
      rcases Nat.lt_trichotomy b a with hb | rfl | hb
      · rw [if_neg (by omega), if_neg (by omega), if_neg (by omega)]
      · rw [if_neg (by omega), if_pos rfl, if_pos (by omega)]; simp
      · by_cases h2 : b < a + 1 + vs.length
        · rw [if_pos (by omega), if_pos (by omega), show b - a = (b - (a + 1)) + 1 by omega]
          simp
        · rw [if_neg (by omega), if_neg (by omega), if_neg (by omega)]

/-- A range write keeps the canonical form. -/
theorem Memory.wf_writeRange {name : MemName} {cap : Nat} {m m' : Memory α} {a : Nat} {vs : List α}
    (h : Memory.writeRange name cap m a vs = .ok m') (hm : Memory.wf m) : Memory.wf m' := by
  induction vs generalizing m a with
  | nil => simp only [Memory.writeRange, Except.ok.injEq] at h; exact h ▸ hm
  | cons v vs ih =>
    simp only [Memory.writeRange] at h
    split at h
    · cases h
    · next m1 h1 => exact ih h ((Memory.writeCell_eq_ok.1 h1).2 ▸ Memory.wf_write a v hm)

/-- A range write keeps the bound. -/
theorem Memory.within_writeRange {name : MemName} {cap : Nat} {m m' : Memory α} {a : Nat} {vs : List α}
    (h : Memory.writeRange name cap m a vs = .ok m') (hm : Memory.within cap m) : Memory.within cap m' := by
  induction vs generalizing m a with
  | nil => simp only [Memory.writeRange, Except.ok.injEq] at h; exact h ▸ hm
  | cons v vs ih =>
    simp only [Memory.writeRange] at h
    split at h
    · cases h
    · next m1 h1 =>
      obtain ⟨h2, rfl⟩ := Memory.writeCell_eq_ok.1 h1
      exact ih h (Memory.within_write v h2 hm)

/-- A range read straight after a range write from the same index gives the list written. -/
theorem Memory.readRange_writeRange {name : MemName} {cap : Nat} {m m' : Memory α} {a n : Nat} {vs : List α}
    (h : Memory.writeRange name cap m a vs = .ok m') (hn : vs.length = n) :
    Memory.readRange name cap m' a n = .ok vs := by
  refine Memory.readRange_eq_ok.2 ⟨hn, fun k hk => ⟨?_, ?_⟩⟩
  · rcases Memory.writeRange_ok_bound h with rfl | hb
    · simp at hn; omega
    · omega
  · rw [Memory.read_writeRange h, if_pos (by omega)]; congr 1; omega

end Sys2Proof.Machine
end

