-- ==== Sys2Proof/Laws/State.lean ====
section
/-! SUPPORT. What each shared update of the state does to each field. -/

namespace Sys2Proof.Machine

/-! `setBe` changes one field. -/

@[simp] theorem setBe_be (b : Bool) (s : State) :
    (setBe b s).be = b := rfl
@[simp] theorem setBe_width (b : Bool) (s : State) :
    (setBe b s).width = s.width := rfl
@[simp] theorem setBe_height (b : Bool) (s : State) :
    (setBe b s).height = s.height := rfl
@[simp] theorem setBe_phase (b : Bool) (s : State) :
    (setBe b s).phase = s.phase := rfl
@[simp] theorem setBe_err (b : Bool) (s : State) :
    (setBe b s).err = s.err := rfl
@[simp] theorem setBe_fphase (b : Bool) (s : State) :
    (setBe b s).fphase = s.fphase := rfl
@[simp] theorem setBe_rawLen (b : Bool) (s : State) :
    (setBe b s).rawLen = s.rawLen := rfl
@[simp] theorem setBe_expLen (b : Bool) (s : State) :
    (setBe b s).expLen = s.expLen := rfl
@[simp] theorem setBe_rowCnt (b : Bool) (s : State) :
    (setBe b s).rowCnt = s.rowCnt := rfl
@[simp] theorem setBe_raw (b : Bool) (s : State) :
    (setBe b s).raw = s.raw := rfl
@[simp] theorem setBe_raster (b : Bool) (s : State) :
    (setBe b s).raster = s.raster := rfl
@[simp] theorem setBe_rowBuf (b : Bool) (s : State) :
    (setBe b s).rowBuf = s.rowBuf := rfl
@[simp] theorem setBe_response (b : Bool) (s : State) :
    (setBe b s).response = s.response := rfl
@[simp] theorem setBe_hostQueue (b : Bool) (s : State) :
    (setBe b s).hostQueue = s.hostQueue := rfl
@[simp] theorem setBe_sinkReplies (b : Bool) (s : State) :
    (setBe b s).sinkReplies = s.sinkReplies := rfl
@[simp] theorem setBe_sinkSent (b : Bool) (s : State) :
    (setBe b s).sinkSent = s.sinkSent := rfl
@[simp] theorem setBe_sinkPast (b : Bool) (s : State) :
    (setBe b s).sinkPast = s.sinkPast := rfl
@[simp] theorem setBe_lastPixel (b : Bool) (s : State) :
    (setBe b s).lastPixel = s.lastPixel := rfl

/-! `setWidth` changes one field. -/

@[simp] theorem setWidth_be (v : Word32) (s : State) :
    (setWidth v s).be = s.be := rfl
@[simp] theorem setWidth_width (v : Word32) (s : State) :
    (setWidth v s).width = v := rfl
@[simp] theorem setWidth_height (v : Word32) (s : State) :
    (setWidth v s).height = s.height := rfl
@[simp] theorem setWidth_phase (v : Word32) (s : State) :
    (setWidth v s).phase = s.phase := rfl
@[simp] theorem setWidth_err (v : Word32) (s : State) :
    (setWidth v s).err = s.err := rfl
@[simp] theorem setWidth_fphase (v : Word32) (s : State) :
    (setWidth v s).fphase = s.fphase := rfl
@[simp] theorem setWidth_rawLen (v : Word32) (s : State) :
    (setWidth v s).rawLen = s.rawLen := rfl
@[simp] theorem setWidth_expLen (v : Word32) (s : State) :
    (setWidth v s).expLen = s.expLen := rfl
@[simp] theorem setWidth_rowCnt (v : Word32) (s : State) :
    (setWidth v s).rowCnt = s.rowCnt := rfl
@[simp] theorem setWidth_raw (v : Word32) (s : State) :
    (setWidth v s).raw = s.raw := rfl
@[simp] theorem setWidth_raster (v : Word32) (s : State) :
    (setWidth v s).raster = s.raster := rfl
@[simp] theorem setWidth_rowBuf (v : Word32) (s : State) :
    (setWidth v s).rowBuf = s.rowBuf := rfl
@[simp] theorem setWidth_response (v : Word32) (s : State) :
    (setWidth v s).response = s.response := rfl
@[simp] theorem setWidth_hostQueue (v : Word32) (s : State) :
    (setWidth v s).hostQueue = s.hostQueue := rfl
@[simp] theorem setWidth_sinkReplies (v : Word32) (s : State) :
    (setWidth v s).sinkReplies = s.sinkReplies := rfl
@[simp] theorem setWidth_sinkSent (v : Word32) (s : State) :
    (setWidth v s).sinkSent = s.sinkSent := rfl
@[simp] theorem setWidth_sinkPast (v : Word32) (s : State) :
    (setWidth v s).sinkPast = s.sinkPast := rfl
@[simp] theorem setWidth_lastPixel (v : Word32) (s : State) :
    (setWidth v s).lastPixel = s.lastPixel := rfl

/-! `setHeight` changes one field. -/

@[simp] theorem setHeight_be (v : Word32) (s : State) :
    (setHeight v s).be = s.be := rfl
@[simp] theorem setHeight_width (v : Word32) (s : State) :
    (setHeight v s).width = s.width := rfl
@[simp] theorem setHeight_height (v : Word32) (s : State) :
    (setHeight v s).height = v := rfl
@[simp] theorem setHeight_phase (v : Word32) (s : State) :
    (setHeight v s).phase = s.phase := rfl
@[simp] theorem setHeight_err (v : Word32) (s : State) :
    (setHeight v s).err = s.err := rfl
@[simp] theorem setHeight_fphase (v : Word32) (s : State) :
    (setHeight v s).fphase = s.fphase := rfl
@[simp] theorem setHeight_rawLen (v : Word32) (s : State) :
    (setHeight v s).rawLen = s.rawLen := rfl
@[simp] theorem setHeight_expLen (v : Word32) (s : State) :
    (setHeight v s).expLen = s.expLen := rfl
@[simp] theorem setHeight_rowCnt (v : Word32) (s : State) :
    (setHeight v s).rowCnt = s.rowCnt := rfl
@[simp] theorem setHeight_raw (v : Word32) (s : State) :
    (setHeight v s).raw = s.raw := rfl
@[simp] theorem setHeight_raster (v : Word32) (s : State) :
    (setHeight v s).raster = s.raster := rfl
@[simp] theorem setHeight_rowBuf (v : Word32) (s : State) :
    (setHeight v s).rowBuf = s.rowBuf := rfl
@[simp] theorem setHeight_response (v : Word32) (s : State) :
    (setHeight v s).response = s.response := rfl
@[simp] theorem setHeight_hostQueue (v : Word32) (s : State) :
    (setHeight v s).hostQueue = s.hostQueue := rfl
@[simp] theorem setHeight_sinkReplies (v : Word32) (s : State) :
    (setHeight v s).sinkReplies = s.sinkReplies := rfl
@[simp] theorem setHeight_sinkSent (v : Word32) (s : State) :
    (setHeight v s).sinkSent = s.sinkSent := rfl
@[simp] theorem setHeight_sinkPast (v : Word32) (s : State) :
    (setHeight v s).sinkPast = s.sinkPast := rfl
@[simp] theorem setHeight_lastPixel (v : Word32) (s : State) :
    (setHeight v s).lastPixel = s.lastPixel := rfl

/-! `setPhase` changes one field. -/

@[simp] theorem setPhase_be (p : Phase) (s : State) :
    (setPhase p s).be = s.be := rfl
@[simp] theorem setPhase_width (p : Phase) (s : State) :
    (setPhase p s).width = s.width := rfl
@[simp] theorem setPhase_height (p : Phase) (s : State) :
    (setPhase p s).height = s.height := rfl
@[simp] theorem setPhase_phase (p : Phase) (s : State) :
    (setPhase p s).phase = p := rfl
@[simp] theorem setPhase_err (p : Phase) (s : State) :
    (setPhase p s).err = s.err := rfl
@[simp] theorem setPhase_fphase (p : Phase) (s : State) :
    (setPhase p s).fphase = s.fphase := rfl
@[simp] theorem setPhase_rawLen (p : Phase) (s : State) :
    (setPhase p s).rawLen = s.rawLen := rfl
@[simp] theorem setPhase_expLen (p : Phase) (s : State) :
    (setPhase p s).expLen = s.expLen := rfl
@[simp] theorem setPhase_rowCnt (p : Phase) (s : State) :
    (setPhase p s).rowCnt = s.rowCnt := rfl
@[simp] theorem setPhase_raw (p : Phase) (s : State) :
    (setPhase p s).raw = s.raw := rfl
@[simp] theorem setPhase_raster (p : Phase) (s : State) :
    (setPhase p s).raster = s.raster := rfl
@[simp] theorem setPhase_rowBuf (p : Phase) (s : State) :
    (setPhase p s).rowBuf = s.rowBuf := rfl
@[simp] theorem setPhase_response (p : Phase) (s : State) :
    (setPhase p s).response = s.response := rfl
@[simp] theorem setPhase_hostQueue (p : Phase) (s : State) :
    (setPhase p s).hostQueue = s.hostQueue := rfl
@[simp] theorem setPhase_sinkReplies (p : Phase) (s : State) :
    (setPhase p s).sinkReplies = s.sinkReplies := rfl
@[simp] theorem setPhase_sinkSent (p : Phase) (s : State) :
    (setPhase p s).sinkSent = s.sinkSent := rfl
@[simp] theorem setPhase_sinkPast (p : Phase) (s : State) :
    (setPhase p s).sinkPast = s.sinkPast := rfl
@[simp] theorem setPhase_lastPixel (p : Phase) (s : State) :
    (setPhase p s).lastPixel = s.lastPixel := rfl

/-! `setRawLen` changes one field. -/

@[simp] theorem setRawLen_be (v : Word64) (s : State) :
    (setRawLen v s).be = s.be := rfl
@[simp] theorem setRawLen_width (v : Word64) (s : State) :
    (setRawLen v s).width = s.width := rfl
@[simp] theorem setRawLen_height (v : Word64) (s : State) :
    (setRawLen v s).height = s.height := rfl
@[simp] theorem setRawLen_phase (v : Word64) (s : State) :
    (setRawLen v s).phase = s.phase := rfl
@[simp] theorem setRawLen_err (v : Word64) (s : State) :
    (setRawLen v s).err = s.err := rfl
@[simp] theorem setRawLen_fphase (v : Word64) (s : State) :
    (setRawLen v s).fphase = s.fphase := rfl
@[simp] theorem setRawLen_rawLen (v : Word64) (s : State) :
    (setRawLen v s).rawLen = v := rfl
@[simp] theorem setRawLen_expLen (v : Word64) (s : State) :
    (setRawLen v s).expLen = s.expLen := rfl
@[simp] theorem setRawLen_rowCnt (v : Word64) (s : State) :
    (setRawLen v s).rowCnt = s.rowCnt := rfl
@[simp] theorem setRawLen_raw (v : Word64) (s : State) :
    (setRawLen v s).raw = s.raw := rfl
@[simp] theorem setRawLen_raster (v : Word64) (s : State) :
    (setRawLen v s).raster = s.raster := rfl
@[simp] theorem setRawLen_rowBuf (v : Word64) (s : State) :
    (setRawLen v s).rowBuf = s.rowBuf := rfl
@[simp] theorem setRawLen_response (v : Word64) (s : State) :
    (setRawLen v s).response = s.response := rfl
@[simp] theorem setRawLen_hostQueue (v : Word64) (s : State) :
    (setRawLen v s).hostQueue = s.hostQueue := rfl
@[simp] theorem setRawLen_sinkReplies (v : Word64) (s : State) :
    (setRawLen v s).sinkReplies = s.sinkReplies := rfl
@[simp] theorem setRawLen_sinkSent (v : Word64) (s : State) :
    (setRawLen v s).sinkSent = s.sinkSent := rfl
@[simp] theorem setRawLen_sinkPast (v : Word64) (s : State) :
    (setRawLen v s).sinkPast = s.sinkPast := rfl
@[simp] theorem setRawLen_lastPixel (v : Word64) (s : State) :
    (setRawLen v s).lastPixel = s.lastPixel := rfl

/-! `setExpLen` changes one field. -/

@[simp] theorem setExpLen_be (v : Word64) (s : State) :
    (setExpLen v s).be = s.be := rfl
@[simp] theorem setExpLen_width (v : Word64) (s : State) :
    (setExpLen v s).width = s.width := rfl
@[simp] theorem setExpLen_height (v : Word64) (s : State) :
    (setExpLen v s).height = s.height := rfl
@[simp] theorem setExpLen_phase (v : Word64) (s : State) :
    (setExpLen v s).phase = s.phase := rfl
@[simp] theorem setExpLen_err (v : Word64) (s : State) :
    (setExpLen v s).err = s.err := rfl
@[simp] theorem setExpLen_fphase (v : Word64) (s : State) :
    (setExpLen v s).fphase = s.fphase := rfl
@[simp] theorem setExpLen_rawLen (v : Word64) (s : State) :
    (setExpLen v s).rawLen = s.rawLen := rfl
@[simp] theorem setExpLen_expLen (v : Word64) (s : State) :
    (setExpLen v s).expLen = v := rfl
@[simp] theorem setExpLen_rowCnt (v : Word64) (s : State) :
    (setExpLen v s).rowCnt = s.rowCnt := rfl
@[simp] theorem setExpLen_raw (v : Word64) (s : State) :
    (setExpLen v s).raw = s.raw := rfl
@[simp] theorem setExpLen_raster (v : Word64) (s : State) :
    (setExpLen v s).raster = s.raster := rfl
@[simp] theorem setExpLen_rowBuf (v : Word64) (s : State) :
    (setExpLen v s).rowBuf = s.rowBuf := rfl
@[simp] theorem setExpLen_response (v : Word64) (s : State) :
    (setExpLen v s).response = s.response := rfl
@[simp] theorem setExpLen_hostQueue (v : Word64) (s : State) :
    (setExpLen v s).hostQueue = s.hostQueue := rfl
@[simp] theorem setExpLen_sinkReplies (v : Word64) (s : State) :
    (setExpLen v s).sinkReplies = s.sinkReplies := rfl
@[simp] theorem setExpLen_sinkSent (v : Word64) (s : State) :
    (setExpLen v s).sinkSent = s.sinkSent := rfl
@[simp] theorem setExpLen_sinkPast (v : Word64) (s : State) :
    (setExpLen v s).sinkPast = s.sinkPast := rfl
@[simp] theorem setExpLen_lastPixel (v : Word64) (s : State) :
    (setExpLen v s).lastPixel = s.lastPixel := rfl

/-! `setRowCnt` changes one field. -/

@[simp] theorem setRowCnt_be (v : Word32) (s : State) :
    (setRowCnt v s).be = s.be := rfl
@[simp] theorem setRowCnt_width (v : Word32) (s : State) :
    (setRowCnt v s).width = s.width := rfl
@[simp] theorem setRowCnt_height (v : Word32) (s : State) :
    (setRowCnt v s).height = s.height := rfl
@[simp] theorem setRowCnt_phase (v : Word32) (s : State) :
    (setRowCnt v s).phase = s.phase := rfl
@[simp] theorem setRowCnt_err (v : Word32) (s : State) :
    (setRowCnt v s).err = s.err := rfl
@[simp] theorem setRowCnt_fphase (v : Word32) (s : State) :
    (setRowCnt v s).fphase = s.fphase := rfl
@[simp] theorem setRowCnt_rawLen (v : Word32) (s : State) :
    (setRowCnt v s).rawLen = s.rawLen := rfl
@[simp] theorem setRowCnt_expLen (v : Word32) (s : State) :
    (setRowCnt v s).expLen = s.expLen := rfl
@[simp] theorem setRowCnt_rowCnt (v : Word32) (s : State) :
    (setRowCnt v s).rowCnt = v := rfl
@[simp] theorem setRowCnt_raw (v : Word32) (s : State) :
    (setRowCnt v s).raw = s.raw := rfl
@[simp] theorem setRowCnt_raster (v : Word32) (s : State) :
    (setRowCnt v s).raster = s.raster := rfl
@[simp] theorem setRowCnt_rowBuf (v : Word32) (s : State) :
    (setRowCnt v s).rowBuf = s.rowBuf := rfl
@[simp] theorem setRowCnt_response (v : Word32) (s : State) :
    (setRowCnt v s).response = s.response := rfl
@[simp] theorem setRowCnt_hostQueue (v : Word32) (s : State) :
    (setRowCnt v s).hostQueue = s.hostQueue := rfl
@[simp] theorem setRowCnt_sinkReplies (v : Word32) (s : State) :
    (setRowCnt v s).sinkReplies = s.sinkReplies := rfl
@[simp] theorem setRowCnt_sinkSent (v : Word32) (s : State) :
    (setRowCnt v s).sinkSent = s.sinkSent := rfl
@[simp] theorem setRowCnt_sinkPast (v : Word32) (s : State) :
    (setRowCnt v s).sinkPast = s.sinkPast := rfl
@[simp] theorem setRowCnt_lastPixel (v : Word32) (s : State) :
    (setRowCnt v s).lastPixel = s.lastPixel := rfl

/-! `setRaw` changes one field. -/

@[simp] theorem setRaw_be (m : Memory Byte) (s : State) :
    (setRaw m s).be = s.be := rfl
@[simp] theorem setRaw_width (m : Memory Byte) (s : State) :
    (setRaw m s).width = s.width := rfl
@[simp] theorem setRaw_height (m : Memory Byte) (s : State) :
    (setRaw m s).height = s.height := rfl
@[simp] theorem setRaw_phase (m : Memory Byte) (s : State) :
    (setRaw m s).phase = s.phase := rfl
@[simp] theorem setRaw_err (m : Memory Byte) (s : State) :
    (setRaw m s).err = s.err := rfl
@[simp] theorem setRaw_fphase (m : Memory Byte) (s : State) :
    (setRaw m s).fphase = s.fphase := rfl
@[simp] theorem setRaw_rawLen (m : Memory Byte) (s : State) :
    (setRaw m s).rawLen = s.rawLen := rfl
@[simp] theorem setRaw_expLen (m : Memory Byte) (s : State) :
    (setRaw m s).expLen = s.expLen := rfl
@[simp] theorem setRaw_rowCnt (m : Memory Byte) (s : State) :
    (setRaw m s).rowCnt = s.rowCnt := rfl
@[simp] theorem setRaw_raw (m : Memory Byte) (s : State) :
    (setRaw m s).raw = m := rfl
@[simp] theorem setRaw_raster (m : Memory Byte) (s : State) :
    (setRaw m s).raster = s.raster := rfl
@[simp] theorem setRaw_rowBuf (m : Memory Byte) (s : State) :
    (setRaw m s).rowBuf = s.rowBuf := rfl
@[simp] theorem setRaw_response (m : Memory Byte) (s : State) :
    (setRaw m s).response = s.response := rfl
@[simp] theorem setRaw_hostQueue (m : Memory Byte) (s : State) :
    (setRaw m s).hostQueue = s.hostQueue := rfl
@[simp] theorem setRaw_sinkReplies (m : Memory Byte) (s : State) :
    (setRaw m s).sinkReplies = s.sinkReplies := rfl
@[simp] theorem setRaw_sinkSent (m : Memory Byte) (s : State) :
    (setRaw m s).sinkSent = s.sinkSent := rfl
@[simp] theorem setRaw_sinkPast (m : Memory Byte) (s : State) :
    (setRaw m s).sinkPast = s.sinkPast := rfl
@[simp] theorem setRaw_lastPixel (m : Memory Byte) (s : State) :
    (setRaw m s).lastPixel = s.lastPixel := rfl

/-! `setRaster` changes one field. -/

@[simp] theorem setRaster_be (m : Memory Pixel) (s : State) :
    (setRaster m s).be = s.be := rfl
@[simp] theorem setRaster_width (m : Memory Pixel) (s : State) :
    (setRaster m s).width = s.width := rfl
@[simp] theorem setRaster_height (m : Memory Pixel) (s : State) :
    (setRaster m s).height = s.height := rfl
@[simp] theorem setRaster_phase (m : Memory Pixel) (s : State) :
    (setRaster m s).phase = s.phase := rfl
@[simp] theorem setRaster_err (m : Memory Pixel) (s : State) :
    (setRaster m s).err = s.err := rfl
@[simp] theorem setRaster_fphase (m : Memory Pixel) (s : State) :
    (setRaster m s).fphase = s.fphase := rfl
@[simp] theorem setRaster_rawLen (m : Memory Pixel) (s : State) :
    (setRaster m s).rawLen = s.rawLen := rfl
@[simp] theorem setRaster_expLen (m : Memory Pixel) (s : State) :
    (setRaster m s).expLen = s.expLen := rfl
@[simp] theorem setRaster_rowCnt (m : Memory Pixel) (s : State) :
    (setRaster m s).rowCnt = s.rowCnt := rfl
@[simp] theorem setRaster_raw (m : Memory Pixel) (s : State) :
    (setRaster m s).raw = s.raw := rfl
@[simp] theorem setRaster_raster (m : Memory Pixel) (s : State) :
    (setRaster m s).raster = m := rfl
@[simp] theorem setRaster_rowBuf (m : Memory Pixel) (s : State) :
    (setRaster m s).rowBuf = s.rowBuf := rfl
@[simp] theorem setRaster_response (m : Memory Pixel) (s : State) :
    (setRaster m s).response = s.response := rfl
@[simp] theorem setRaster_hostQueue (m : Memory Pixel) (s : State) :
    (setRaster m s).hostQueue = s.hostQueue := rfl
@[simp] theorem setRaster_sinkReplies (m : Memory Pixel) (s : State) :
    (setRaster m s).sinkReplies = s.sinkReplies := rfl
@[simp] theorem setRaster_sinkSent (m : Memory Pixel) (s : State) :
    (setRaster m s).sinkSent = s.sinkSent := rfl
@[simp] theorem setRaster_sinkPast (m : Memory Pixel) (s : State) :
    (setRaster m s).sinkPast = s.sinkPast := rfl
@[simp] theorem setRaster_lastPixel (m : Memory Pixel) (s : State) :
    (setRaster m s).lastPixel = s.lastPixel := rfl

/-! `setRowBuf` changes one field. -/

@[simp] theorem setRowBuf_be (m : Memory Byte) (s : State) :
    (setRowBuf m s).be = s.be := rfl
@[simp] theorem setRowBuf_width (m : Memory Byte) (s : State) :
    (setRowBuf m s).width = s.width := rfl
@[simp] theorem setRowBuf_height (m : Memory Byte) (s : State) :
    (setRowBuf m s).height = s.height := rfl
@[simp] theorem setRowBuf_phase (m : Memory Byte) (s : State) :
    (setRowBuf m s).phase = s.phase := rfl
@[simp] theorem setRowBuf_err (m : Memory Byte) (s : State) :
    (setRowBuf m s).err = s.err := rfl
@[simp] theorem setRowBuf_fphase (m : Memory Byte) (s : State) :
    (setRowBuf m s).fphase = s.fphase := rfl
@[simp] theorem setRowBuf_rawLen (m : Memory Byte) (s : State) :
    (setRowBuf m s).rawLen = s.rawLen := rfl
@[simp] theorem setRowBuf_expLen (m : Memory Byte) (s : State) :
    (setRowBuf m s).expLen = s.expLen := rfl
@[simp] theorem setRowBuf_rowCnt (m : Memory Byte) (s : State) :
    (setRowBuf m s).rowCnt = s.rowCnt := rfl
@[simp] theorem setRowBuf_raw (m : Memory Byte) (s : State) :
    (setRowBuf m s).raw = s.raw := rfl
@[simp] theorem setRowBuf_raster (m : Memory Byte) (s : State) :
    (setRowBuf m s).raster = s.raster := rfl
@[simp] theorem setRowBuf_rowBuf (m : Memory Byte) (s : State) :
    (setRowBuf m s).rowBuf = m := rfl
@[simp] theorem setRowBuf_response (m : Memory Byte) (s : State) :
    (setRowBuf m s).response = s.response := rfl
@[simp] theorem setRowBuf_hostQueue (m : Memory Byte) (s : State) :
    (setRowBuf m s).hostQueue = s.hostQueue := rfl
@[simp] theorem setRowBuf_sinkReplies (m : Memory Byte) (s : State) :
    (setRowBuf m s).sinkReplies = s.sinkReplies := rfl
@[simp] theorem setRowBuf_sinkSent (m : Memory Byte) (s : State) :
    (setRowBuf m s).sinkSent = s.sinkSent := rfl
@[simp] theorem setRowBuf_sinkPast (m : Memory Byte) (s : State) :
    (setRowBuf m s).sinkPast = s.sinkPast := rfl
@[simp] theorem setRowBuf_lastPixel (m : Memory Byte) (s : State) :
    (setRowBuf m s).lastPixel = s.lastPixel := rfl

/-! `popHost` changes one field. -/

@[simp] theorem popHost_be (r : List HostEvent) (s : State) :
    (popHost r s).be = s.be := rfl
@[simp] theorem popHost_width (r : List HostEvent) (s : State) :
    (popHost r s).width = s.width := rfl
@[simp] theorem popHost_height (r : List HostEvent) (s : State) :
    (popHost r s).height = s.height := rfl
@[simp] theorem popHost_phase (r : List HostEvent) (s : State) :
    (popHost r s).phase = s.phase := rfl
@[simp] theorem popHost_err (r : List HostEvent) (s : State) :
    (popHost r s).err = s.err := rfl
@[simp] theorem popHost_fphase (r : List HostEvent) (s : State) :
    (popHost r s).fphase = s.fphase := rfl
@[simp] theorem popHost_rawLen (r : List HostEvent) (s : State) :
    (popHost r s).rawLen = s.rawLen := rfl
@[simp] theorem popHost_expLen (r : List HostEvent) (s : State) :
    (popHost r s).expLen = s.expLen := rfl
@[simp] theorem popHost_rowCnt (r : List HostEvent) (s : State) :
    (popHost r s).rowCnt = s.rowCnt := rfl
@[simp] theorem popHost_raw (r : List HostEvent) (s : State) :
    (popHost r s).raw = s.raw := rfl
@[simp] theorem popHost_raster (r : List HostEvent) (s : State) :
    (popHost r s).raster = s.raster := rfl
@[simp] theorem popHost_rowBuf (r : List HostEvent) (s : State) :
    (popHost r s).rowBuf = s.rowBuf := rfl
@[simp] theorem popHost_response (r : List HostEvent) (s : State) :
    (popHost r s).response = s.response := rfl
@[simp] theorem popHost_hostQueue (r : List HostEvent) (s : State) :
    (popHost r s).hostQueue = r := rfl
@[simp] theorem popHost_sinkReplies (r : List HostEvent) (s : State) :
    (popHost r s).sinkReplies = s.sinkReplies := rfl
@[simp] theorem popHost_sinkSent (r : List HostEvent) (s : State) :
    (popHost r s).sinkSent = s.sinkSent := rfl
@[simp] theorem popHost_sinkPast (r : List HostEvent) (s : State) :
    (popHost r s).sinkPast = s.sinkPast := rfl
@[simp] theorem popHost_lastPixel (r : List HostEvent) (s : State) :
    (popHost r s).lastPixel = s.lastPixel := rfl

/-! Presenting a command clears the response (R122). -/

@[simp] theorem present_be (r : List HostEvent) (s : State) :
    (present r s).be = s.be := rfl
@[simp] theorem present_width (r : List HostEvent) (s : State) :
    (present r s).width = s.width := rfl
@[simp] theorem present_height (r : List HostEvent) (s : State) :
    (present r s).height = s.height := rfl
@[simp] theorem present_phase (r : List HostEvent) (s : State) :
    (present r s).phase = s.phase := rfl
@[simp] theorem present_err (r : List HostEvent) (s : State) :
    (present r s).err = s.err := rfl
@[simp] theorem present_fphase (r : List HostEvent) (s : State) :
    (present r s).fphase = s.fphase := rfl
@[simp] theorem present_rawLen (r : List HostEvent) (s : State) :
    (present r s).rawLen = s.rawLen := rfl
@[simp] theorem present_expLen (r : List HostEvent) (s : State) :
    (present r s).expLen = s.expLen := rfl
@[simp] theorem present_rowCnt (r : List HostEvent) (s : State) :
    (present r s).rowCnt = s.rowCnt := rfl
@[simp] theorem present_raw (r : List HostEvent) (s : State) :
    (present r s).raw = s.raw := rfl
@[simp] theorem present_raster (r : List HostEvent) (s : State) :
    (present r s).raster = s.raster := rfl
@[simp] theorem present_rowBuf (r : List HostEvent) (s : State) :
    (present r s).rowBuf = s.rowBuf := rfl
@[simp] theorem present_response (r : List HostEvent) (s : State) :
    (present r s).response = none := rfl
@[simp] theorem present_hostQueue (r : List HostEvent) (s : State) :
    (present r s).hostQueue = r := rfl
@[simp] theorem present_sinkReplies (r : List HostEvent) (s : State) :
    (present r s).sinkReplies = s.sinkReplies := rfl
@[simp] theorem present_sinkSent (r : List HostEvent) (s : State) :
    (present r s).sinkSent = s.sinkSent := rfl
@[simp] theorem present_sinkPast (r : List HostEvent) (s : State) :
    (present r s).sinkPast = s.sinkPast := rfl
@[simp] theorem present_lastPixel (r : List HostEvent) (s : State) :
    (present r s).lastPixel = s.lastPixel := rfl

/-! A response changes the response word alone (R50). -/

@[simp] theorem respond_be (c : RespCode) (d : Word32) (s : State) :
    (respond c d s).be = s.be := rfl
@[simp] theorem respond_width (c : RespCode) (d : Word32) (s : State) :
    (respond c d s).width = s.width := rfl
@[simp] theorem respond_height (c : RespCode) (d : Word32) (s : State) :
    (respond c d s).height = s.height := rfl
@[simp] theorem respond_phase (c : RespCode) (d : Word32) (s : State) :
    (respond c d s).phase = s.phase := rfl
@[simp] theorem respond_err (c : RespCode) (d : Word32) (s : State) :
    (respond c d s).err = s.err := rfl
@[simp] theorem respond_fphase (c : RespCode) (d : Word32) (s : State) :
    (respond c d s).fphase = s.fphase := rfl
@[simp] theorem respond_rawLen (c : RespCode) (d : Word32) (s : State) :
    (respond c d s).rawLen = s.rawLen := rfl
@[simp] theorem respond_expLen (c : RespCode) (d : Word32) (s : State) :
    (respond c d s).expLen = s.expLen := rfl
@[simp] theorem respond_rowCnt (c : RespCode) (d : Word32) (s : State) :
    (respond c d s).rowCnt = s.rowCnt := rfl
@[simp] theorem respond_raw (c : RespCode) (d : Word32) (s : State) :
    (respond c d s).raw = s.raw := rfl
@[simp] theorem respond_raster (c : RespCode) (d : Word32) (s : State) :
    (respond c d s).raster = s.raster := rfl
@[simp] theorem respond_rowBuf (c : RespCode) (d : Word32) (s : State) :
    (respond c d s).rowBuf = s.rowBuf := rfl
@[simp] theorem respond_response (c : RespCode) (d : Word32) (s : State) :
    (respond c d s).response = some (responseWord c d) := rfl
@[simp] theorem respond_hostQueue (c : RespCode) (d : Word32) (s : State) :
    (respond c d s).hostQueue = s.hostQueue := rfl
@[simp] theorem respond_sinkReplies (c : RespCode) (d : Word32) (s : State) :
    (respond c d s).sinkReplies = s.sinkReplies := rfl
@[simp] theorem respond_sinkSent (c : RespCode) (d : Word32) (s : State) :
    (respond c d s).sinkSent = s.sinkSent := rfl
@[simp] theorem respond_sinkPast (c : RespCode) (d : Word32) (s : State) :
    (respond c d s).sinkPast = s.sinkPast := rfl
@[simp] theorem respond_lastPixel (c : RespCode) (d : Word32) (s : State) :
    (respond c d s).lastPixel = s.lastPixel := rfl

/-! Fault entry changes STATUS and the response word alone (R100). -/

@[simp] theorem takeFault_be (k : Err) (s : State) :
    (takeFault k s).be = s.be := rfl
@[simp] theorem takeFault_width (k : Err) (s : State) :
    (takeFault k s).width = s.width := rfl
@[simp] theorem takeFault_height (k : Err) (s : State) :
    (takeFault k s).height = s.height := rfl
@[simp] theorem takeFault_phase (k : Err) (s : State) :
    (takeFault k s).phase = .error := rfl
@[simp] theorem takeFault_err (k : Err) (s : State) :
    (takeFault k s).err = k := rfl
@[simp] theorem takeFault_fphase (k : Err) (s : State) :
    (takeFault k s).fphase = s.phase := rfl
@[simp] theorem takeFault_rawLen (k : Err) (s : State) :
    (takeFault k s).rawLen = s.rawLen := rfl
@[simp] theorem takeFault_expLen (k : Err) (s : State) :
    (takeFault k s).expLen = s.expLen := rfl
@[simp] theorem takeFault_rowCnt (k : Err) (s : State) :
    (takeFault k s).rowCnt = s.rowCnt := rfl
@[simp] theorem takeFault_raw (k : Err) (s : State) :
    (takeFault k s).raw = s.raw := rfl
@[simp] theorem takeFault_raster (k : Err) (s : State) :
    (takeFault k s).raster = s.raster := rfl
@[simp] theorem takeFault_rowBuf (k : Err) (s : State) :
    (takeFault k s).rowBuf = s.rowBuf := rfl
@[simp] theorem takeFault_response (k : Err) (s : State) :
    (takeFault k s).response = some (responseWord (.kind k) 0) := rfl
@[simp] theorem takeFault_hostQueue (k : Err) (s : State) :
    (takeFault k s).hostQueue = s.hostQueue := rfl
@[simp] theorem takeFault_sinkReplies (k : Err) (s : State) :
    (takeFault k s).sinkReplies = s.sinkReplies := rfl
@[simp] theorem takeFault_sinkSent (k : Err) (s : State) :
    (takeFault k s).sinkSent = s.sinkSent := rfl
@[simp] theorem takeFault_sinkPast (k : Err) (s : State) :
    (takeFault k s).sinkPast = s.sinkPast := rfl
@[simp] theorem takeFault_lastPixel (k : Err) (s : State) :
    (takeFault k s).lastPixel = s.lastPixel := rfl

/-! A refused command in phase ERROR changes the response word alone (R101). -/

@[simp] theorem answerStored_be (s : State) :
    (answerStored s).be = s.be := rfl
@[simp] theorem answerStored_width (s : State) :
    (answerStored s).width = s.width := rfl
@[simp] theorem answerStored_height (s : State) :
    (answerStored s).height = s.height := rfl
@[simp] theorem answerStored_phase (s : State) :
    (answerStored s).phase = s.phase := rfl
@[simp] theorem answerStored_err (s : State) :
    (answerStored s).err = s.err := rfl
@[simp] theorem answerStored_fphase (s : State) :
    (answerStored s).fphase = s.fphase := rfl
@[simp] theorem answerStored_rawLen (s : State) :
    (answerStored s).rawLen = s.rawLen := rfl
@[simp] theorem answerStored_expLen (s : State) :
    (answerStored s).expLen = s.expLen := rfl
@[simp] theorem answerStored_rowCnt (s : State) :
    (answerStored s).rowCnt = s.rowCnt := rfl
@[simp] theorem answerStored_raw (s : State) :
    (answerStored s).raw = s.raw := rfl
@[simp] theorem answerStored_raster (s : State) :
    (answerStored s).raster = s.raster := rfl
@[simp] theorem answerStored_rowBuf (s : State) :
    (answerStored s).rowBuf = s.rowBuf := rfl
@[simp] theorem answerStored_response (s : State) :
    (answerStored s).response = some (responseWord (.kind s.err) 0) := rfl
@[simp] theorem answerStored_hostQueue (s : State) :
    (answerStored s).hostQueue = s.hostQueue := rfl
@[simp] theorem answerStored_sinkReplies (s : State) :
    (answerStored s).sinkReplies = s.sinkReplies := rfl
@[simp] theorem answerStored_sinkSent (s : State) :
    (answerStored s).sinkSent = s.sinkSent := rfl
@[simp] theorem answerStored_sinkPast (s : State) :
    (answerStored s).sinkPast = s.sinkPast := rfl
@[simp] theorem answerStored_lastPixel (s : State) :
    (answerStored s).lastPixel = s.lastPixel := rfl

/-! A sink transaction changes the sink port's two lists alone (R81). -/

@[simp] theorem recordTxn_be (q : SinkRequest) (a : Option SinkAnswer) (r : List SinkReply) (s : State) :
    (recordTxn q a r s).be = s.be := rfl
@[simp] theorem recordTxn_width (q : SinkRequest) (a : Option SinkAnswer) (r : List SinkReply) (s : State) :
    (recordTxn q a r s).width = s.width := rfl
@[simp] theorem recordTxn_height (q : SinkRequest) (a : Option SinkAnswer) (r : List SinkReply) (s : State) :
    (recordTxn q a r s).height = s.height := rfl
@[simp] theorem recordTxn_phase (q : SinkRequest) (a : Option SinkAnswer) (r : List SinkReply) (s : State) :
    (recordTxn q a r s).phase = s.phase := rfl
@[simp] theorem recordTxn_err (q : SinkRequest) (a : Option SinkAnswer) (r : List SinkReply) (s : State) :
    (recordTxn q a r s).err = s.err := rfl
@[simp] theorem recordTxn_fphase (q : SinkRequest) (a : Option SinkAnswer) (r : List SinkReply) (s : State) :
    (recordTxn q a r s).fphase = s.fphase := rfl
@[simp] theorem recordTxn_rawLen (q : SinkRequest) (a : Option SinkAnswer) (r : List SinkReply) (s : State) :
    (recordTxn q a r s).rawLen = s.rawLen := rfl
@[simp] theorem recordTxn_expLen (q : SinkRequest) (a : Option SinkAnswer) (r : List SinkReply) (s : State) :
    (recordTxn q a r s).expLen = s.expLen := rfl
@[simp] theorem recordTxn_rowCnt (q : SinkRequest) (a : Option SinkAnswer) (r : List SinkReply) (s : State) :
    (recordTxn q a r s).rowCnt = s.rowCnt := rfl
@[simp] theorem recordTxn_raw (q : SinkRequest) (a : Option SinkAnswer) (r : List SinkReply) (s : State) :
    (recordTxn q a r s).raw = s.raw := rfl
@[simp] theorem recordTxn_raster (q : SinkRequest) (a : Option SinkAnswer) (r : List SinkReply) (s : State) :
    (recordTxn q a r s).raster = s.raster := rfl
@[simp] theorem recordTxn_rowBuf (q : SinkRequest) (a : Option SinkAnswer) (r : List SinkReply) (s : State) :
    (recordTxn q a r s).rowBuf = s.rowBuf := rfl
@[simp] theorem recordTxn_response (q : SinkRequest) (a : Option SinkAnswer) (r : List SinkReply) (s : State) :
    (recordTxn q a r s).response = s.response := rfl
@[simp] theorem recordTxn_hostQueue (q : SinkRequest) (a : Option SinkAnswer) (r : List SinkReply) (s : State) :
    (recordTxn q a r s).hostQueue = s.hostQueue := rfl
@[simp] theorem recordTxn_sinkReplies (q : SinkRequest) (a : Option SinkAnswer) (r : List SinkReply) (s : State) :
    (recordTxn q a r s).sinkReplies = r := rfl
@[simp] theorem recordTxn_sinkSent (q : SinkRequest) (a : Option SinkAnswer) (r : List SinkReply) (s : State) :
    (recordTxn q a r s).sinkSent = s.sinkSent ++ [{ request := q, answer := a }] := rfl
@[simp] theorem recordTxn_sinkPast (q : SinkRequest) (a : Option SinkAnswer) (r : List SinkReply) (s : State) :
    (recordTxn q a r s).sinkPast = s.sinkPast := rfl
@[simp] theorem recordTxn_lastPixel (q : SinkRequest) (a : Option SinkAnswer) (r : List SinkReply) (s : State) :
    (recordTxn q a r s).lastPixel = s.lastPixel := rfl

/-! The reset state, field by field (R27, R115). -/

@[simp] theorem resetBlock_be (s : State) :
    (resetBlock s).be = false := rfl
@[simp] theorem resetBlock_width (s : State) :
    (resetBlock s).width = 0 := rfl
@[simp] theorem resetBlock_height (s : State) :
    (resetBlock s).height = 0 := rfl
@[simp] theorem resetBlock_phase (s : State) :
    (resetBlock s).phase = .idle := rfl
@[simp] theorem resetBlock_err (s : State) :
    (resetBlock s).err = .noErr := rfl
@[simp] theorem resetBlock_fphase (s : State) :
    (resetBlock s).fphase = .idle := rfl
@[simp] theorem resetBlock_rawLen (s : State) :
    (resetBlock s).rawLen = 0 := rfl
@[simp] theorem resetBlock_expLen (s : State) :
    (resetBlock s).expLen = 0 := rfl
@[simp] theorem resetBlock_rowCnt (s : State) :
    (resetBlock s).rowCnt = 0 := rfl
@[simp] theorem resetBlock_raw (s : State) :
    (resetBlock s).raw = [] := rfl
@[simp] theorem resetBlock_raster (s : State) :
    (resetBlock s).raster = [] := rfl
@[simp] theorem resetBlock_rowBuf (s : State) :
    (resetBlock s).rowBuf = [] := rfl
@[simp] theorem resetBlock_response (s : State) :
    (resetBlock s).response = none := rfl
@[simp] theorem resetBlock_hostQueue (s : State) :
    (resetBlock s).hostQueue = s.hostQueue := rfl
@[simp] theorem resetBlock_sinkReplies (s : State) :
    (resetBlock s).sinkReplies = s.sinkReplies := rfl
@[simp] theorem resetBlock_sinkSent (s : State) :
    (resetBlock s).sinkSent = [] := rfl
@[simp] theorem resetBlock_sinkPast (s : State) :
    (resetBlock s).sinkPast = s.sinkPast ++ s.sinkSent := rfl
@[simp] theorem resetBlock_lastPixel (s : State) :
    (resetBlock s).lastPixel = s.lastPixel := rfl

/-! Counting a pushed byte changes RAWLEN alone (R20). -/

@[simp] theorem countPushed_be (s : State) : (countPushed s).be = s.be := by
  unfold countPushed; split <;> rfl
@[simp] theorem countPushed_width (s : State) : (countPushed s).width = s.width := by
  unfold countPushed; split <;> rfl
@[simp] theorem countPushed_height (s : State) : (countPushed s).height = s.height := by
  unfold countPushed; split <;> rfl
@[simp] theorem countPushed_phase (s : State) : (countPushed s).phase = s.phase := by
  unfold countPushed; split <;> rfl
@[simp] theorem countPushed_err (s : State) : (countPushed s).err = s.err := by
  unfold countPushed; split <;> rfl
@[simp] theorem countPushed_fphase (s : State) : (countPushed s).fphase = s.fphase := by
  unfold countPushed; split <;> rfl
@[simp] theorem countPushed_expLen (s : State) : (countPushed s).expLen = s.expLen := by
  unfold countPushed; split <;> rfl
@[simp] theorem countPushed_rowCnt (s : State) : (countPushed s).rowCnt = s.rowCnt := by
  unfold countPushed; split <;> rfl
@[simp] theorem countPushed_raw (s : State) : (countPushed s).raw = s.raw := by
  unfold countPushed; split <;> rfl
@[simp] theorem countPushed_raster (s : State) : (countPushed s).raster = s.raster := by
  unfold countPushed; split <;> rfl
@[simp] theorem countPushed_rowBuf (s : State) : (countPushed s).rowBuf = s.rowBuf := by
  unfold countPushed; split <;> rfl
@[simp] theorem countPushed_response (s : State) : (countPushed s).response = s.response := by
  unfold countPushed; split <;> rfl
@[simp] theorem countPushed_hostQueue (s : State) : (countPushed s).hostQueue = s.hostQueue := by
  unfold countPushed; split <;> rfl
@[simp] theorem countPushed_sinkReplies (s : State) : (countPushed s).sinkReplies = s.sinkReplies := by
  unfold countPushed; split <;> rfl
@[simp] theorem countPushed_sinkSent (s : State) : (countPushed s).sinkSent = s.sinkSent := by
  unfold countPushed; split <;> rfl
@[simp] theorem countPushed_sinkPast (s : State) : (countPushed s).sinkPast = s.sinkPast := by
  unfold countPushed; split <;> rfl
@[simp] theorem countPushed_lastPixel (s : State) : (countPushed s).lastPixel = s.lastPixel := by
  unfold countPushed; split <;> rfl

/-- The count saturates at `2^64 - 1` (R20). -/
theorem countPushed_rawLen_toNat (s : State) :
    (countPushed s).rawLen.toNat = min (s.rawLen.toNat + 1) (2 ^ 64 - 1) := by
  have := s.rawLen.isLt
  unfold countPushed
  split <;> simp [BitVec.toNat_add] <;> omega

/-! The sizes depend on the parameter alone, and the pixel count on the dimensions (R5). -/

@[simp] theorem maxPix_setBe (b : Bool) (s : State) : maxPix (setBe b s) = maxPix s := rfl
@[simp] theorem rawCap_setBe (b : Bool) (s : State) : rawCap (setBe b s) = rawCap s := rfl
@[simp] theorem rasterCap_setBe (b : Bool) (s : State) : rasterCap (setBe b s) = rasterCap s := rfl
@[simp] theorem rowBufCap_setBe (b : Bool) (s : State) : rowBufCap (setBe b s) = rowBufCap s := rfl
@[simp] theorem pixelCount_setBe (b : Bool) (s : State) : pixelCount (setBe b s) = pixelCount s := rfl
@[simp] theorem maxPix_setWidth (v : Word32) (s : State) : maxPix (setWidth v s) = maxPix s := rfl
@[simp] theorem rawCap_setWidth (v : Word32) (s : State) : rawCap (setWidth v s) = rawCap s := rfl
@[simp] theorem rasterCap_setWidth (v : Word32) (s : State) : rasterCap (setWidth v s) = rasterCap s := rfl
@[simp] theorem rowBufCap_setWidth (v : Word32) (s : State) : rowBufCap (setWidth v s) = rowBufCap s := rfl
@[simp] theorem maxPix_setHeight (v : Word32) (s : State) : maxPix (setHeight v s) = maxPix s := rfl
@[simp] theorem rawCap_setHeight (v : Word32) (s : State) : rawCap (setHeight v s) = rawCap s := rfl
@[simp] theorem rasterCap_setHeight (v : Word32) (s : State) : rasterCap (setHeight v s) = rasterCap s := rfl
@[simp] theorem rowBufCap_setHeight (v : Word32) (s : State) : rowBufCap (setHeight v s) = rowBufCap s := rfl
@[simp] theorem maxPix_setPhase (p : Phase) (s : State) : maxPix (setPhase p s) = maxPix s := rfl
@[simp] theorem rawCap_setPhase (p : Phase) (s : State) : rawCap (setPhase p s) = rawCap s := rfl
@[simp] theorem rasterCap_setPhase (p : Phase) (s : State) : rasterCap (setPhase p s) = rasterCap s := rfl
@[simp] theorem rowBufCap_setPhase (p : Phase) (s : State) : rowBufCap (setPhase p s) = rowBufCap s := rfl
@[simp] theorem pixelCount_setPhase (p : Phase) (s : State) : pixelCount (setPhase p s) = pixelCount s := rfl
@[simp] theorem maxPix_setRawLen (v : Word64) (s : State) : maxPix (setRawLen v s) = maxPix s := rfl
@[simp] theorem rawCap_setRawLen (v : Word64) (s : State) : rawCap (setRawLen v s) = rawCap s := rfl
@[simp] theorem rasterCap_setRawLen (v : Word64) (s : State) : rasterCap (setRawLen v s) = rasterCap s := rfl
@[simp] theorem rowBufCap_setRawLen (v : Word64) (s : State) : rowBufCap (setRawLen v s) = rowBufCap s := rfl
@[simp] theorem pixelCount_setRawLen (v : Word64) (s : State) : pixelCount (setRawLen v s) = pixelCount s := rfl
@[simp] theorem maxPix_setExpLen (v : Word64) (s : State) : maxPix (setExpLen v s) = maxPix s := rfl
@[simp] theorem rawCap_setExpLen (v : Word64) (s : State) : rawCap (setExpLen v s) = rawCap s := rfl
@[simp] theorem rasterCap_setExpLen (v : Word64) (s : State) : rasterCap (setExpLen v s) = rasterCap s := rfl
@[simp] theorem rowBufCap_setExpLen (v : Word64) (s : State) : rowBufCap (setExpLen v s) = rowBufCap s := rfl
@[simp] theorem pixelCount_setExpLen (v : Word64) (s : State) : pixelCount (setExpLen v s) = pixelCount s := rfl
@[simp] theorem maxPix_setRowCnt (v : Word32) (s : State) : maxPix (setRowCnt v s) = maxPix s := rfl
@[simp] theorem rawCap_setRowCnt (v : Word32) (s : State) : rawCap (setRowCnt v s) = rawCap s := rfl
@[simp] theorem rasterCap_setRowCnt (v : Word32) (s : State) : rasterCap (setRowCnt v s) = rasterCap s := rfl
@[simp] theorem rowBufCap_setRowCnt (v : Word32) (s : State) : rowBufCap (setRowCnt v s) = rowBufCap s := rfl
@[simp] theorem pixelCount_setRowCnt (v : Word32) (s : State) : pixelCount (setRowCnt v s) = pixelCount s := rfl
@[simp] theorem maxPix_setRaw (m : Memory Byte) (s : State) : maxPix (setRaw m s) = maxPix s := rfl
@[simp] theorem rawCap_setRaw (m : Memory Byte) (s : State) : rawCap (setRaw m s) = rawCap s := rfl
@[simp] theorem rasterCap_setRaw (m : Memory Byte) (s : State) : rasterCap (setRaw m s) = rasterCap s := rfl
@[simp] theorem rowBufCap_setRaw (m : Memory Byte) (s : State) : rowBufCap (setRaw m s) = rowBufCap s := rfl
@[simp] theorem pixelCount_setRaw (m : Memory Byte) (s : State) : pixelCount (setRaw m s) = pixelCount s := rfl
@[simp] theorem maxPix_setRaster (m : Memory Pixel) (s : State) : maxPix (setRaster m s) = maxPix s := rfl
@[simp] theorem rawCap_setRaster (m : Memory Pixel) (s : State) : rawCap (setRaster m s) = rawCap s := rfl
@[simp] theorem rasterCap_setRaster (m : Memory Pixel) (s : State) : rasterCap (setRaster m s) = rasterCap s := rfl
@[simp] theorem rowBufCap_setRaster (m : Memory Pixel) (s : State) : rowBufCap (setRaster m s) = rowBufCap s := rfl
@[simp] theorem pixelCount_setRaster (m : Memory Pixel) (s : State) : pixelCount (setRaster m s) = pixelCount s := rfl
@[simp] theorem maxPix_setRowBuf (m : Memory Byte) (s : State) : maxPix (setRowBuf m s) = maxPix s := rfl
@[simp] theorem rawCap_setRowBuf (m : Memory Byte) (s : State) : rawCap (setRowBuf m s) = rawCap s := rfl
@[simp] theorem rasterCap_setRowBuf (m : Memory Byte) (s : State) : rasterCap (setRowBuf m s) = rasterCap s := rfl
@[simp] theorem rowBufCap_setRowBuf (m : Memory Byte) (s : State) : rowBufCap (setRowBuf m s) = rowBufCap s := rfl
@[simp] theorem pixelCount_setRowBuf (m : Memory Byte) (s : State) : pixelCount (setRowBuf m s) = pixelCount s := rfl
@[simp] theorem maxPix_popHost (r : List HostEvent) (s : State) : maxPix (popHost r s) = maxPix s := rfl
@[simp] theorem rawCap_popHost (r : List HostEvent) (s : State) : rawCap (popHost r s) = rawCap s := rfl
@[simp] theorem rasterCap_popHost (r : List HostEvent) (s : State) : rasterCap (popHost r s) = rasterCap s := rfl
@[simp] theorem rowBufCap_popHost (r : List HostEvent) (s : State) : rowBufCap (popHost r s) = rowBufCap s := rfl
@[simp] theorem pixelCount_popHost (r : List HostEvent) (s : State) : pixelCount (popHost r s) = pixelCount s := rfl
@[simp] theorem maxPix_present (r : List HostEvent) (s : State) : maxPix (present r s) = maxPix s := rfl
@[simp] theorem rawCap_present (r : List HostEvent) (s : State) : rawCap (present r s) = rawCap s := rfl
@[simp] theorem rasterCap_present (r : List HostEvent) (s : State) : rasterCap (present r s) = rasterCap s := rfl
@[simp] theorem rowBufCap_present (r : List HostEvent) (s : State) : rowBufCap (present r s) = rowBufCap s := rfl
@[simp] theorem pixelCount_present (r : List HostEvent) (s : State) : pixelCount (present r s) = pixelCount s := rfl
@[simp] theorem maxPix_respond (c : RespCode) (d : Word32) (s : State) : maxPix (respond c d s) = maxPix s := rfl
@[simp] theorem rawCap_respond (c : RespCode) (d : Word32) (s : State) : rawCap (respond c d s) = rawCap s := rfl
@[simp] theorem rasterCap_respond (c : RespCode) (d : Word32) (s : State) : rasterCap (respond c d s) = rasterCap s := rfl
@[simp] theorem rowBufCap_respond (c : RespCode) (d : Word32) (s : State) : rowBufCap (respond c d s) = rowBufCap s := rfl
@[simp] theorem pixelCount_respond (c : RespCode) (d : Word32) (s : State) : pixelCount (respond c d s) = pixelCount s := rfl
@[simp] theorem maxPix_takeFault (k : Err) (s : State) : maxPix (takeFault k s) = maxPix s := rfl
@[simp] theorem rawCap_takeFault (k : Err) (s : State) : rawCap (takeFault k s) = rawCap s := rfl
@[simp] theorem rasterCap_takeFault (k : Err) (s : State) : rasterCap (takeFault k s) = rasterCap s := rfl
@[simp] theorem rowBufCap_takeFault (k : Err) (s : State) : rowBufCap (takeFault k s) = rowBufCap s := rfl
@[simp] theorem pixelCount_takeFault (k : Err) (s : State) : pixelCount (takeFault k s) = pixelCount s := rfl
@[simp] theorem maxPix_answerStored (s : State) : maxPix (answerStored s) = maxPix s := rfl
@[simp] theorem rawCap_answerStored (s : State) : rawCap (answerStored s) = rawCap s := rfl
@[simp] theorem rasterCap_answerStored (s : State) : rasterCap (answerStored s) = rasterCap s := rfl
@[simp] theorem rowBufCap_answerStored (s : State) : rowBufCap (answerStored s) = rowBufCap s := rfl
@[simp] theorem pixelCount_answerStored (s : State) : pixelCount (answerStored s) = pixelCount s := rfl
@[simp] theorem maxPix_recordTxn (q : SinkRequest) (a : Option SinkAnswer) (r : List SinkReply) (s : State) : maxPix (recordTxn q a r s) = maxPix s := rfl
@[simp] theorem rawCap_recordTxn (q : SinkRequest) (a : Option SinkAnswer) (r : List SinkReply) (s : State) : rawCap (recordTxn q a r s) = rawCap s := rfl
@[simp] theorem rasterCap_recordTxn (q : SinkRequest) (a : Option SinkAnswer) (r : List SinkReply) (s : State) : rasterCap (recordTxn q a r s) = rasterCap s := rfl
@[simp] theorem rowBufCap_recordTxn (q : SinkRequest) (a : Option SinkAnswer) (r : List SinkReply) (s : State) : rowBufCap (recordTxn q a r s) = rowBufCap s := rfl
@[simp] theorem pixelCount_recordTxn (q : SinkRequest) (a : Option SinkAnswer) (r : List SinkReply) (s : State) : pixelCount (recordTxn q a r s) = pixelCount s := rfl
@[simp] theorem maxPix_resetBlock (s : State) : maxPix (resetBlock s) = maxPix s := rfl
@[simp] theorem rawCap_resetBlock (s : State) : rawCap (resetBlock s) = rawCap s := rfl
@[simp] theorem rasterCap_resetBlock (s : State) : rasterCap (resetBlock s) = rasterCap s := rfl
@[simp] theorem rowBufCap_resetBlock (s : State) : rowBufCap (resetBlock s) = rowBufCap s := rfl
@[simp] theorem maxPix_countPushed (s : State) : maxPix (countPushed s) = maxPix s := by
  unfold countPushed; split <;> rfl
@[simp] theorem rawCap_countPushed (s : State) : rawCap (countPushed s) = rawCap s := by
  unfold countPushed; split <;> rfl
@[simp] theorem rasterCap_countPushed (s : State) : rasterCap (countPushed s) = rasterCap s := by
  unfold countPushed; split <;> rfl
@[simp] theorem rowBufCap_countPushed (s : State) : rowBufCap (countPushed s) = rowBufCap s := by
  unfold countPushed; split <;> rfl
@[simp] theorem pixelCount_countPushed (s : State) : pixelCount (countPushed s) = pixelCount s := by
  unfold countPushed; split <;> rfl

/-- MAXPIX is at least 1 (R5). -/
theorem one_le_maxPix (s : State) : 1 ≤ maxPix s := Nat.succ_le_succ (Nat.zero_le _)

/-- MAXPIX is at most `2^32` (R5). -/
theorem maxPix_le (s : State) : maxPix s ≤ 2 ^ 32 := s.lastPixel.isLt

/-- The phase reached is FPHASE in phase ERROR (R17). -/
theorem reachedPhase_of_error {s : State} (h : s.phase = .error) : reachedPhase s = s.fphase := by
  simp [reachedPhase, h]

/-- The phase reached is PHASE in every other phase (R15). -/
theorem reachedPhase_of_ne_error {s : State} (h : s.phase ≠ .error) : reachedPhase s = s.phase := by
  simp [reachedPhase, h]

/-- Taking a fault outside phase ERROR keeps the phase reached (R17, R100). -/
@[simp] theorem reachedPhase_takeFault (k : Err) (s : State) : reachedPhase (takeFault k s) = s.phase := rfl

@[simp] theorem reachedPhase_respond (c : RespCode) (d : Word32) (s : State) :
    reachedPhase (respond c d s) = reachedPhase s := rfl

@[simp] theorem reachedPhase_answerStored (s : State) : reachedPhase (answerStored s) = reachedPhase s := rfl

end Sys2Proof.Machine
end

