-- ==== Sys2Proof/Laws/Ops.lean ====
section
/-! SUPPORT. One lemma per shared operation that says everything it can do: the three memories of a state, the dispatch on the
phase, the sink port, the command port, and the Decoder's loop. -/

namespace Sys2Proof.Machine

/-! ### The three memories (spec/20_memory.md R30 to R32) -/

theorem readRaw_eq_ok {a : Nat} {s : State} {b : Byte} :
    readRaw a s = .ok b ↔ a < rawCap s ∧ Memory.read s.raw a = some b := Memory.readCell_eq_ok

theorem writeRaw_eq_ok {a : Nat} {b : Byte} {s t : State} :
    writeRaw a b s = .ok t ↔ a < rawCap s ∧ t = setRaw (Memory.write s.raw a b) s := by
  unfold writeRaw Memory.writeCell
  split_ifs with h <;> simp [h, eq_comm]

theorem readRaster_eq_ok {i : Nat} {s : State} {p : Pixel} :
    readRaster i s = .ok p ↔ i < rasterCap s ∧ Memory.read s.raster i = some p := Memory.readCell_eq_ok

theorem readRasterRange_eq_ok {i n : Nat} {s : State} {ps : List Pixel} :
    readRasterRange i n s = .ok ps ↔
      ps.length = n ∧ ∀ k, k < n → i + k < rasterCap s ∧ Memory.read s.raster (i + k) = ps[k]? :=
  Memory.readRange_eq_ok

theorem writeRaster_eq_ok {ps : List Pixel} {s t : State} :
    writeRaster ps s = .ok t ↔
      ∃ m, Memory.writeRange .raster (rasterCap s) s.raster 0 ps = .ok m ∧ t = setRaster m s := by
  unfold writeRaster
  split <;> rename_i h <;> simp [h, eq_comm]

theorem writeRowBuf_eq_ok {bs : List Byte} {s t : State} :
    writeRowBuf bs s = .ok t ↔
      ∃ m, Memory.writeRange .rowBuf (rowBufCap s) s.rowBuf 0 bs = .ok m ∧ t = setRowBuf m s := by
  unfold writeRowBuf
  split <;> rename_i h <;> simp [h, eq_comm]

/-! ### Dispatch on the phase (spec/40_run_control.md R60) -/

theorem inPhase_accepted {p : Phase} {body : State → Result} {s : State} (h : s.phase = p) (hp : p ≠ .error) :
    inPhase p body s = body s := by
  unfold inPhase; rw [if_neg (h ▸ hp), if_pos h]

theorem inPhase_error {p : Phase} {body : State → Result} {s : State} (h : s.phase = .error) :
    inPhase p body s = .next (answerStored s) := by
  unfold inPhase; rw [if_pos h]

theorem inPhase_refused {p : Phase} {body : State → Result} {s : State} (h : s.phase ≠ .error) (hp : s.phase ≠ p) :
    inPhase p body s = .next (takeFault .cmd s) := by
  unfold inPhase; rw [if_neg h, if_neg hp]

theorem inPhase_next {p : Phase} {body : State → Result} {s t : State} (h : inPhase p body s = .next t) :
    (s.phase = .error ∧ t = answerStored s) ∨
    (s.phase ≠ .error ∧ s.phase = p ∧ body s = .next t) ∨
    (s.phase ≠ .error ∧ s.phase ≠ p ∧ t = takeFault .cmd s) := by
  unfold inPhase at h
  split_ifs at h with h1 h2
  · exact .inl ⟨h1, by simpa using h.symm⟩
  · exact .inr (.inl ⟨h1, h2, h⟩)
  · exact .inr (.inr ⟨h1, h2, by simpa using h.symm⟩)

theorem inPhase_fault {p : Phase} {body : State → Result} {s : State} {f : Fault} (h : inPhase p body s = .fault f) :
    s.phase ≠ .error ∧ s.phase = p ∧ body s = .fault f := by
  unfold inPhase at h
  split_ifs at h with h1 h2
  exact ⟨h1, h2, h⟩

theorem runIllegal_error {s : State} (h : s.phase = .error) : runIllegal s = .next (answerStored s) := by
  unfold runIllegal; rw [if_pos h]

theorem runIllegal_not_error {s : State} (h : s.phase ≠ .error) : runIllegal s = .next (takeFault .cmd s) := by
  unfold runIllegal; rw [if_neg h]

theorem runIllegal_next {s t : State} (h : runIllegal s = .next t) :
    (s.phase = .error ∧ t = answerStored s) ∨ (s.phase ≠ .error ∧ t = takeFault .cmd s) := by
  unfold runIllegal at h
  split_ifs at h with h1
  · exact .inl ⟨h1, by simpa using h.symm⟩
  · exact .inr ⟨h1, by simpa using h.symm⟩

/-! ### The sink port (spec/42_row_emitter.md R81) -/

theorem sinkTransact_ok {q : SinkRequest} {f g : State → Result} {s : State} {r : List SinkReply}
    (h : s.sinkReplies = .answer .ok :: r) : sinkTransact q f g s = f (recordTxn q (some .ok) r s) := by
  simp [sinkTransact, h]

theorem sinkTransact_fail {q : SinkRequest} {f g : State → Result} {s : State} {r : List SinkReply}
    (h : s.sinkReplies = .answer .fail :: r) : sinkTransact q f g s = g (recordTxn q (some .fail) r s) := by
  simp [sinkTransact, h]

theorem sinkTransact_silent {q : SinkRequest} {f g : State → Result} {s : State} (h : s.sinkReplies = []) :
    sinkTransact q f g s = .fault .sinkSilent := by
  simp [sinkTransact, h]

/-- A transaction leads on with the sink's answer, waits for ever, or ends in a hardware reset. -/
theorem sinkTransact_cases (q : SinkRequest) (f g : State → Result) (s : State) :
    (s.sinkReplies = [] ∧ sinkTransact q f g s = .fault .sinkSilent) ∨
    (∃ r, s.sinkReplies = .answer .ok :: r ∧ sinkTransact q f g s = f (recordTxn q (some .ok) r s)) ∨
    (∃ r, s.sinkReplies = .answer .fail :: r ∧ sinkTransact q f g s = g (recordTxn q (some .fail) r s)) ∨
    (∃ x a r, s.sinkReplies = x :: r ∧ (x = .resetFirst ∧ a = none ∨ ∃ b, x = .answerThenReset b ∧ a = some b) ∧
      sinkTransact q f g s = .next (resetBlock (recordTxn q a r s))) := by
  unfold sinkTransact
  split <;> rename_i h <;> simp [h]

/-! ### The command port (spec/30_encoding.md R49) -/

theorem fetch_nothing {s : State} (h : s.hostQueue = []) : fetch s = .nothing := by simp [fetch, h]

theorem fetch_hardReset {s : State} {rest : List HostEvent} (h : s.hostQueue = .hardReset :: rest) :
    fetch s = .hardReset (popHost rest s) := by simp [fetch, h]

theorem fetch_word {s : State} {w : PortWord} {rest : List HostEvent} (h : s.hostQueue = .command w :: rest) :
    fetch s = .word w (present rest s) := by simp [fetch, h]

/-- Everything a step can be: waiting, a hardware reset, a command, an illegal word. -/
theorem step_cases (s : State) :
    (s.hostQueue = [] ∧ step s = .next s) ∨
    (∃ rest, s.hostQueue = .hardReset :: rest ∧ step s = .next (resetBlock (popHost rest s))) ∨
    (∃ w rest i, s.hostQueue = .command w :: rest ∧ decode w = .ok i ∧
      step s = exec i (present rest s)) ∨
    (∃ w rest e, s.hostQueue = .command w :: rest ∧ decode w = .error e ∧
      step s = runIllegal (present rest s)) := by
  unfold step
  rcases h : s.hostQueue with _ | ⟨_ | _, rest⟩
  · exact .inl ⟨rfl, by rw [fetch_nothing h]⟩
  · rename_i w
    rw [fetch_word h]
    rcases hd : decode w with e | i
    · exact .inr (.inr (.inr ⟨w, rest, e, rfl, hd, by simp only [hd]⟩))
    · exact .inr (.inr (.inl ⟨w, rest, i, rfl, hd, by simp only [hd]⟩))
  · exact .inr (.inl ⟨rest, rfl, by rw [fetch_hardReset h]⟩)

/-! ### The Decoder (spec/41_decoder.md R70, R71) -/

/-- What the Decoder's loop answers: one pixel per index, each from its own two bytes. -/
theorem decodePixels_eq_ok {s : State} {i n : Nat} {ps : List Pixel} :
    decodePixels s i n = .ok ps ↔ ps.length = n ∧ ∀ k, k < n → ∃ b0 b1,
      readRaw (2 * (i + k)) s = .ok b0 ∧ readRaw (2 * (i + k) + 1) s = .ok b1 ∧
      ps[k]? = some (decodePixel b0 b1 s.be) := by
  induction n generalizing i ps with
  | zero => simp [decodePixels, eq_comm]
  | succ n ih =>
    simp only [decodePixels]
    constructor
    · intro h
      split at h <;> try cases h
      next b0 b1 h0 h1 =>
      split at h <;> try cases h
      next ws hws =>
      obtain ⟨hl, hk⟩ := ih.1 hws
      refine ⟨by simp [hl], fun k hkn => ?_⟩
      cases k with
      | zero => exact ⟨b0, b1, h0, h1, rfl⟩
      | succ k =>
        have := hk k (by omega)
        rw [show i + (k + 1) = i + 1 + k by omega]
        simpa using this
    · rintro ⟨hl, hk⟩
      cases ps with
      | nil => simp at hl
      | cons p ws =>
        obtain ⟨b0, b1, h0, h1, h2⟩ := hk 0 (by omega)
        simp only [Nat.add_zero] at h0 h1
        have : decodePixels s (i + 1) n = .ok ws := by
          refine ih.2 ⟨by simpa using hl, fun k hkn => ?_⟩
          have := hk (k + 1) (by omega)
          rw [show i + 1 + k = i + (k + 1) by omega]
          simpa using this
        simp only [List.getElem?_cons_zero, Option.some.injEq] at h2
        simp [h0, h1, this, h2]

/-- PUSH's effect: the byte is stored at RAWLEN below EXPLEN, dropped otherwise, and counted. -/
theorem pushBody_next {b : Byte} {s t : State} (h : pushBody b s = .next t) :
    (s.rawLen.toNat < s.expLen.toNat ∧ s.rawLen.toNat < rawCap s ∧
      t = respond .ok 0 (countPushed (setRaw (Memory.write s.raw s.rawLen.toNat b) s))) ∨
    (s.expLen.toNat ≤ s.rawLen.toNat ∧ t = respond .ok 0 (countPushed s)) := by
  unfold pushBody storePushed at h
  split_ifs at h with h1
  · split at h
    · cases h
    · next u hu =>
      obtain ⟨h2, rfl⟩ := writeRaw_eq_ok.1 hu
      exact .inl ⟨h1, h2, by simpa using h.symm⟩
  · exact .inr ⟨by omega, by simpa using h.symm⟩

/-- DECODE's effect: FormatError on a wrong length, else the pixels of the raw buffer in RASTER from index 0 on. -/
theorem decodeBody_next {s t : State} (h : decodeBody s = .next t) :
    (s.rawLen ≠ s.expLen ∧ t = takeFault .format s) ∨
    (s.rawLen = s.expLen ∧ ∃ ps m, decodePixels s 0 (pixelCount s) = .ok ps ∧
      Memory.writeRange .raster (rasterCap s) s.raster 0 ps = .ok m ∧
      t = respond .ok 0 (setPhase .decoded (setRaster m s))) := by
  unfold decodeBody at h
  split_ifs at h with h1
  · exact .inl ⟨h1, by simpa using h.symm⟩
  · split at h
    · cases h
    · next ps hps =>
      split at h
      · cases h
      · next u hu =>
        obtain ⟨m, hm, rfl⟩ := writeRaster_eq_ok.1 hu
        exact .inr ⟨by simpa using h1, ps, m, hps, hm, by simpa using h.symm⟩

/-- START's effect: ConfigError, or the configuration frozen (spec/40_run_control.md R64). -/
theorem startBody_next {s t : State} (h : startBody s = .next t) :
    ((s.width = 0 ∨ s.height = 0 ∨ maxPix s < pixelCount s) ∧ t = takeFault .config s) ∨
    (s.width ≠ 0 ∧ s.height ≠ 0 ∧ pixelCount s ≤ maxPix s ∧ t = respond .ok 0
      (setPhase .loading (setRawLen 0 (setExpLen (BitVec.ofNat 64 (2 * pixelCount s)) s)))) := by
  unfold startBody at h
  split_ifs at h with h1 h2
  · exact .inl ⟨by tauto, by simpa using h.symm⟩
  · exact .inl ⟨by tauto, by simpa using h.symm⟩
  · simp only [not_or] at h1
    exact .inr ⟨h1.1, h1.2, by omega, by simpa using h.symm⟩

/-- The expected length fits 64 bits whenever START stores it (spec/10_state.md R21). -/
theorem expLen_fits {s : State} (h : pixelCount s ≤ maxPix s) :
    (BitVec.ofNat 64 (2 * pixelCount s)).toNat = 2 * pixelCount s := by
  have := maxPix_le s
  rw [BitVec.toNat_ofNat, Nat.mod_eq_of_lt]
  omega

end Sys2Proof.Machine
end

