-- ==== Sys2Proof/Laws/RowEmitter.lean ====
section
/-! SUPPORT. What the row loop of EMIT does (spec/42_row_emitter.md R80, R82): the row it builds, the rows accepted so far, and
the point where it ends. -/

namespace Sys2Proof.Machine

/-- A row's pixels laid out as bytes: four bytes each. -/
theorem length_flatMap_channels (ps : List Pixel) : (ps.flatMap Pixel.channels).length = 4 * ps.length := by
  induction ps with
  | nil => rfl
  | cons p ps ih => simp [Pixel.channels, ih]; omega

/-- Byte `4*x + c` of a list of pixels laid out is channel c of pixel x. -/
theorem getElem?_flatMap_channels {ps : List Pixel} {x : Nat} {p : Pixel} (h : ps[x]? = some p) :
    (ps.flatMap Pixel.channels)[4 * x]? = some p.red ∧ (ps.flatMap Pixel.channels)[4 * x + 1]? = some p.green ∧
    (ps.flatMap Pixel.channels)[4 * x + 2]? = some p.blue ∧ (ps.flatMap Pixel.channels)[4 * x + 3]? = some p.alpha := by
  induction ps generalizing x with
  | nil => simp at h
  | cons q ps ih =>
    cases x with
    | zero =>
      simp only [List.getElem?_cons_zero, Option.some.injEq] at h
      subst h
      simp [Pixel.channels]
    | succ x =>
      have shift : ∀ c, (q.channels ++ ps.flatMap Pixel.channels)[4 * (x + 1) + c]? =
          (ps.flatMap Pixel.channels)[4 * x + c]? := fun c => by
        rw [List.getElem?_append_right (by simp only [Pixel.channels, List.length_cons, List.length_nil]; omega)]
        congr 1
        simp only [Pixel.channels, List.length_cons, List.length_nil]
        omega
      simp only [List.flatMap_cons, shift]
      have := shift 0
      simp only [Nat.add_zero] at this
      rw [this]
      exact ih (by simpa using h)

/-- Rows of one length, one after the other. -/
theorem length_flatten_rows {w : Nat} {rows : List (List Byte)} (h : ∀ b ∈ rows, b.length = w) :
    rows.flatten.length = w * rows.length := by
  induction rows with
  | nil => simp
  | cons b bs ih =>
    simp only [List.mem_cons, forall_eq_or_imp] at h
    rw [List.flatten_cons, List.length_append, h.1, ih h.2, List.length_cons, Nat.mul_succ, Nat.add_comm]

/-- Byte `c` of row `y` of rows of one length, one after the other. -/
theorem getElem?_flatten_rows {w y c : Nat} {rows : List (List Byte)} {bytes : List Byte} (h : ∀ b ∈ rows, b.length = w)
    (hc : c < w) (hy : rows[y]? = some bytes) : rows.flatten[y * w + c]? = bytes[c]? := by
  induction rows generalizing y with
  | nil => simp at hy
  | cons b bs ih =>
    simp only [List.mem_cons, forall_eq_or_imp] at h
    rw [List.flatten_cons]
    cases y with
    | zero =>
      simp only [List.getElem?_cons_zero, Option.some.injEq] at hy
      subst hy
      rw [Nat.zero_mul, Nat.zero_add, List.getElem?_append_left (by omega)]
    | succ y =>
      have e : (y + 1) * w = y * w + w := Nat.succ_mul y w
      rw [List.getElem?_append_right (by omega), h.1, ← ih h.2 (by simpa using hy)]
      congr 1
      omega

/-- Building a row: it is read back whole from ROWBUF, and it is the row R82 describes. -/
theorem buildRow_next {y : Nat} {s t : State} (h : buildRow y s = .ok t) :
    ∃ m bytes, t = setRowBuf m s ∧ Memory.writeRange .rowBuf (rowBufCap s) s.rowBuf 0 bytes = .ok m ∧
      RowOf s y bytes ∧ readRowBuf (4 * t.width.toNat) t = .ok bytes := by
  unfold buildRow at h
  split at h
  · cases h
  · next ps hps =>
    obtain ⟨m, hm, rfl⟩ := writeRowBuf_eq_ok.1 h
    obtain ⟨hl, hk⟩ := readRasterRange_eq_ok.1 hps
    have hlen : (ps.flatMap Pixel.channels).length = 4 * s.width.toNat := by rw [length_flatMap_channels, hl]
    refine ⟨m, _, rfl, hm, ⟨hlen, fun x hx => ?_⟩, Memory.readRange_writeRange hm hlen⟩
    have hx' : x < ps.length := by omega
    refine ⟨ps[x], ?_, getElem?_flatMap_channels (List.getElem?_eq_getElem hx')⟩
    rw [(hk x hx).2, List.getElem?_eq_getElem hx']

/-- A row of a whole Raster can be built. -/
theorem buildRow_ok {y : Nat} {s : State} (hw : RasterWhole s) (hy : y < s.height.toNat) :
    ∃ t, buildRow y s = .ok t := by
  have hrow : y * s.width.toNat + s.width.toNat ≤ pixelCount s := by
    have := Nat.mul_le_mul_right s.width.toNat hy
    rw [Nat.succ_mul] at this
    rwa [pixelCount, Nat.mul_comm s.width.toNat]
  have hread : ∃ ps, readRasterRange (y * s.width.toNat) s.width.toNat s = .ok ps := by
    refine ⟨(List.range s.width.toNat).map fun x => (Memory.read s.raster (y * s.width.toNat + x)).getD ⟨0, 0, 0, 0⟩,
      readRasterRange_eq_ok.2 ⟨by simp, fun k hk => ⟨?_, ?_⟩⟩⟩
    · have := hw.1; simp only [rasterCap]; omega
    · obtain ⟨p, hp⟩ := hw.2 (y * s.width.toNat + k) (by omega)
      simp [hk, hp]
  obtain ⟨ps, hps⟩ := hread
  have hl := (readRasterRange_eq_ok.1 hps).1
  obtain ⟨m, hm⟩ := Memory.writeRange_ok (name := .rowBuf) (cap := rowBufCap s) (a := 0)
    (vs := ps.flatMap Pixel.channels) s.rowBuf (by
      rw [length_flatMap_channels, hl]
      have := hw.1
      simp only [rowBufCap]
      omega)
  exact ⟨setRowBuf m s, by simp only [buildRow, hps]; exact writeRowBuf_eq_ok.2 ⟨m, hm, rfl⟩⟩

/-- EMIT's state after the sink accepted `rows`, with `buf` in ROWBUF and `r` the sink's answers still to come. -/
def emitProgress (rows : List (List Byte)) (buf : Memory Byte) (r : List SinkReply) (s : State) : State :=
  { s with
    rowCnt := s.rowCnt + BitVec.ofNat 32 rows.length
    rowBuf := buf
    sinkReplies := r
    sinkSent := s.sinkSent ++ rows.map rowAccepted }

section EmitProgressFields

variable (rows : List (List Byte)) (buf : Memory Byte) (r : List SinkReply) (s : State)

@[simp] theorem emitProgress_be : (emitProgress rows buf r s).be = s.be := rfl
@[simp] theorem emitProgress_width : (emitProgress rows buf r s).width = s.width := rfl
@[simp] theorem emitProgress_height : (emitProgress rows buf r s).height = s.height := rfl
@[simp] theorem emitProgress_phase : (emitProgress rows buf r s).phase = s.phase := rfl
@[simp] theorem emitProgress_err : (emitProgress rows buf r s).err = s.err := rfl
@[simp] theorem emitProgress_fphase : (emitProgress rows buf r s).fphase = s.fphase := rfl
@[simp] theorem emitProgress_rawLen : (emitProgress rows buf r s).rawLen = s.rawLen := rfl
@[simp] theorem emitProgress_expLen : (emitProgress rows buf r s).expLen = s.expLen := rfl
@[simp] theorem emitProgress_rowCnt : (emitProgress rows buf r s).rowCnt = s.rowCnt + BitVec.ofNat 32 rows.length := rfl
@[simp] theorem emitProgress_raw : (emitProgress rows buf r s).raw = s.raw := rfl
@[simp] theorem emitProgress_raster : (emitProgress rows buf r s).raster = s.raster := rfl
@[simp] theorem emitProgress_rowBuf : (emitProgress rows buf r s).rowBuf = buf := rfl
@[simp] theorem emitProgress_response : (emitProgress rows buf r s).response = s.response := rfl
@[simp] theorem emitProgress_hostQueue : (emitProgress rows buf r s).hostQueue = s.hostQueue := rfl
@[simp] theorem emitProgress_sinkReplies : (emitProgress rows buf r s).sinkReplies = r := rfl
@[simp] theorem emitProgress_sinkSent : (emitProgress rows buf r s).sinkSent = s.sinkSent ++ rows.map rowAccepted := rfl
@[simp] theorem emitProgress_sinkPast : (emitProgress rows buf r s).sinkPast = s.sinkPast := rfl
@[simp] theorem emitProgress_lastPixel : (emitProgress rows buf r s).lastPixel = s.lastPixel := rfl

end EmitProgressFields

/-- `RowBufAfter`, with the canonical form and the bound of ROWBUF kept. -/
def BufferAfter (s : State) (rows : List (List Byte)) (buf : Memory Byte) : Prop :=
  (Memory.wf s.rowBuf → Memory.wf buf) ∧
  (Memory.within (rowBufCap s) s.rowBuf → Memory.within (rowBufCap s) buf) ∧ RowBufAfter s rows buf

theorem bufferAfter_nil (s : State) : BufferAfter s [] s.rowBuf := ⟨id, id, by simp [RowBufAfter]⟩

/-- One more row built over a buffer. -/
theorem bufferAfter_built {s : State} {y : Nat} {rows : List (List Byte)} {bytes : List Byte} {buf buf' : Memory Byte}
    (h : BufferAfter s rows buf) (hrow : RowOf s y bytes)
    (hw : Memory.writeRange .rowBuf (rowBufCap s) buf 0 bytes = .ok buf') : BufferAfter s (rows ++ [bytes]) buf' := by
  refine ⟨fun hm => Memory.wf_writeRange hw (h.1 hm), fun hm => Memory.within_writeRange hw (h.2.1 hm), fun a => ?_⟩
  rw [Memory.read_writeRange hw, h.2.2 a, hrow.1]
  split_ifs <;> first | omega | simp

/-- One turn of the row loop. -/
theorem emitRows_succ {y n : Nat} {s t : State} {bytes : List Byte} (h : buildRow y s = .ok t)
    (hb : readRowBuf (4 * t.width.toNat) t = .ok bytes) :
    emitRows y (n + 1) s = sinkTransact (.row bytes)
      (fun u => emitRows (y + 1) n (setRowCnt (u.rowCnt + 1) u))
      (fun u => .next (takeFault .io u)) t := by
  simp only [emitRows, h, hb]

/-- A row depends on the Raster and the width alone. -/
theorem RowOf.congr {s t : State} {y : Nat} {bytes : List Byte} (h : RowOf s y bytes)
    (hr : t.raster = s.raster) (hw : t.width = s.width) : RowOf t y bytes := by
  unfold RowOf at h ⊢; rwa [hr, hw]

/-- A row that cannot be built is a memory fault of the model, never the silence of the sink. -/
theorem buildRow_ne_sinkSilent (y : Nat) (s : State) : buildRow y s ≠ .error .sinkSilent := by
  unfold buildRow readRasterRange
  split
  · next f hf =>
    intro h
    exact Memory.readRange_ne_sinkSilent .raster (rasterCap s) s.raster _ _ (by rw [hf]; simpa using h)
  · unfold writeRowBuf
    split
    · next f hf =>
      intro h
      exact Memory.writeRange_ne_sinkSilent _ _ _ _ _ (by rw [hf]; simpa using h)
    · simp

theorem emitProgress_nil (s : State) : emitProgress [] s.rowBuf s.sinkReplies s = s := by
  simp [emitProgress]

/-- The row loop, unless a memory fault ends it: the sink accepts the rows `rows` one after the other, each of them the row
R82 describes, and the loop goes on from there, at the last row or at the first reply that is no plain `ok`. -/
theorem emitRows_progress {n : Nat} : ∀ {y : Nat} {s : State},
    (∀ f, emitRows y n s = .fault f → f = .sinkSilent) →
    ∃ rows buf r, rows.length ≤ n ∧ (∀ j bytes, rows[j]? = some bytes → RowOf s (y + j) bytes) ∧
      BufferAfter s rows buf ∧ s.sinkReplies = List.replicate rows.length (.answer .ok) ++ r ∧
      emitRows y n s = emitRows (y + rows.length) (n - rows.length) (emitProgress rows buf r s) ∧
      (rows.length < n → ∀ r', r ≠ .answer .ok :: r') := by
  induction n with
  | zero =>
    intro y s _
    exact ⟨[], s.rowBuf, s.sinkReplies, Nat.le_refl _, by simp, bufferAfter_nil s, by simp,
      by rw [emitProgress_nil]; simp, by simp⟩
  | succ n ih =>
    intro y s hf
    by_cases hok : ∃ r', s.sinkReplies = .answer .ok :: r'
    · obtain ⟨r', hr'⟩ := hok
      rcases hbr : buildRow y s with f | t
      · have : emitRows y (n + 1) s = .fault f := by simp only [emitRows, hbr]
        exact absurd (hf f this ▸ hbr) (buildRow_ne_sinkSilent y s)
      · obtain ⟨m, bytes, rfl, hm, hrow, hb⟩ := buildRow_next hbr
        have hstep := emitRows_succ (n := n) hbr hb
        rw [sinkTransact_ok (r := r') (s := setRowBuf m s) hr'] at hstep
        obtain ⟨rows, buf, r, hl, hrows, hbuf, hrep, heq, hstop⟩ := ih (hstep ▸ hf)
        refine ⟨bytes :: rows, buf, r, by simpa using hl, ?_, ?_, ?_, ?_, ?_⟩
        · intro j bs hj
          cases j with
          | zero =>
            simp only [List.getElem?_cons_zero, Option.some.injEq] at hj
            exact hj ▸ hrow
          | succ j =>
            have := (hrows j bs (by simpa using hj)).congr (t := s) rfl rfl
            rwa [show y + (j + 1) = y + 1 + j by omega]
        · refine ⟨fun h => hbuf.1 (Memory.wf_writeRange hm h), fun h => hbuf.2.1 (Memory.within_writeRange hm h),
            fun a => ?_⟩
          have h1 := hbuf.2.2 a
          simp only [setRowCnt_rowBuf, setRowCnt_width, recordTxn_rowBuf, recordTxn_width, setRowBuf_rowBuf, setRowBuf_width] at h1
          rw [h1, Memory.read_writeRange hm, hrow.1]
          have hrange : (0 ≤ a ∧ a < 0 + 4 * s.width.toNat) ↔ a < 4 * s.width.toNat := by omega
          simp only [hrange]
          rcases rows.eq_nil_or_concat with rfl | ⟨front, last, rfl⟩
          · by_cases ha : a < 4 * s.width.toNat <;> simp [ha]
          · have hlast : (bytes :: front.concat last).getLast? = some last := by
              rw [List.concat_eq_append, ← List.cons_append]; exact List.getLast?_concat
            rw [hlast]
            by_cases ha : a < 4 * s.width.toNat <;> simp [ha]
        · rw [hr']
          simpa [List.replicate_succ] using hrep
        · rw [hstep, heq]
          have : s.rowCnt + 1#32 + BitVec.ofNat 32 rows.length = s.rowCnt + BitVec.ofNat 32 (rows.length + 1) := by
            rw [BitVec.add_assoc]; congr 1
            apply BitVec.eq_of_toNat_eq
            simp [Nat.add_comm]
          simp [emitProgress, recordTxn, setRowCnt, setRowBuf, this, Nat.add_assoc, Nat.add_comm 1, rowAccepted]
        · intro h; exact hstop (by simpa using h)
    · exact ⟨[], s.rowBuf, s.sinkReplies, by simp, by simp, bufferAfter_nil s, by simp,
        by rw [emitProgress_nil]; simp, fun _ r' h => hok ⟨r', h⟩⟩

/-- A whole Raster has no memory fault: the row loop stops at nothing but the sink. -/
theorem emitRows_fault {n : Nat} : ∀ {y : Nat} {s : State} {f : Fault}, RasterWhole s → y + n ≤ s.height.toNat →
    emitRows y n s = .fault f → f = .sinkSilent := by
  induction n with
  | zero =>
    intro y s f _ _ h
    rcases sinkTransact_cases .endOfImage (fun t => .next (respond .ok 0 (setPhase .done t)))
      (fun t => .next (takeFault .encode t)) s with ⟨-, h1⟩ | ⟨r, -, h1⟩ | ⟨r, -, h1⟩ | ⟨x, a, r, -, -, h1⟩ <;>
      simp only [emitRows, emitEnd, h1] at h <;> simp_all
  | succ n ih =>
    intro y s f hw hy h
    obtain ⟨t, ht⟩ := buildRow_ok hw (y := y) (by omega)
    obtain ⟨m, bytes, rfl, hm, -, hb⟩ := buildRow_next ht
    rw [emitRows_succ ht hb] at h
    rcases sinkTransact_cases (.row bytes) (fun u => emitRows (y + 1) n (setRowCnt (u.rowCnt + 1) u))
      (fun u => .next (takeFault .io u)) (setRowBuf m s)
      with ⟨-, h1⟩ | ⟨r, -, h1⟩ | ⟨r, -, h1⟩ | ⟨x, a, r, -, -, h1⟩ <;> rw [h1] at h
    · simpa using h.symm
    · exact ih (y := y + 1) (s := setRowCnt _ (recordTxn (.row bytes) (some .ok) r (setRowBuf m s))) hw
        (show y + 1 + n ≤ s.height.toNat by omega) h
    · cases h
    · cases h

/-- Two ways to split a list into copies of `x` and a rest that goes on with no further copy agree. -/
theorem replicate_append_cancel {α : Type} {x : α} {n a k : Nat} {r r' : List α} (ha : a ≤ n) (hk : k ≤ n)
    (h : List.replicate a x ++ r = List.replicate k x ++ r')
    (h1 : a < n → ∀ q, r ≠ x :: q) (h2 : k < n → ∀ q, r' ≠ x :: q) : a = k ∧ r = r' := by
  rcases Nat.lt_trichotomy a k with hlt | rfl | hlt
  · obtain ⟨d, rfl⟩ : ∃ d, k = a + (d + 1) := ⟨k - a - 1, by omega⟩
    rw [← List.replicate_append_replicate, List.append_assoc] at h
    exact absurd (List.append_cancel_left h) (h1 (by omega) _)
  · exact ⟨rfl, List.append_cancel_left h⟩
  · obtain ⟨d, rfl⟩ : ∃ d, a = k + (d + 1) := ⟨a - k - 1, by omega⟩
    rw [← List.replicate_append_replicate, List.append_assoc] at h
    exact absurd (List.append_cancel_left h).symm (h2 (by omega) _)

/-- EMIT over a whole Raster with a sink that accepts the first `k` rows: the loop comes to row `k`. -/
theorem emitBody_reaches {s : State} {k : Nat} {r : List SinkReply} (hw : RasterWhole s) (hk : k ≤ s.height.toNat)
    (hr : s.sinkReplies = List.replicate k (.answer .ok) ++ r)
    (hstop : k < s.height.toNat → ∀ q, r ≠ .answer .ok :: q) :
    ∃ rows buf, rows.length = k ∧ RowsOf s rows ∧ BufferAfter s rows buf ∧
      emitBody s = emitRows k (s.height.toNat - k) (emitProgress rows buf r (setRowCnt 0 s)) := by
  obtain ⟨rows, buf, r', h1, h2, h3, h4, h5, h6⟩ := emitRows_progress (n := s.height.toNat) (y := 0)
    (s := setRowCnt 0 s) (fun f hf => emitRows_fault (s := setRowCnt 0 s) hw (by simp) hf)
  obtain ⟨rfl, rfl⟩ := replicate_append_cancel h1 hk (h4.symm.trans hr) h6 hstop
  refine ⟨rows, buf, rfl, fun y hy => ⟨rows[y], List.getElem?_eq_getElem hy, ?_⟩, h3, ?_⟩
  · have := (h2 y _ (List.getElem?_eq_getElem hy)).congr (t := s) rfl rfl
    rwa [Nat.zero_add] at this
  · rw [emitBody, h5, Nat.zero_add]

/-- The ways an EMIT gives a next state, `u` being the state after the rows the sink accepted (R80, R84, R85, R117). -/
inductive EmitEnd (s u : State) (rows : List (List Byte)) : State → Prop
  | done (r : List SinkReply) : rows.length = s.height.toNat →
      EmitEnd s u rows (respond .ok 0 (setPhase .done (recordTxn .endOfImage (some .ok) r u)))
  | endRefused (r : List SinkReply) : rows.length = s.height.toNat →
      EmitEnd s u rows (takeFault .encode (recordTxn .endOfImage (some .fail) r u))
  | endReset (a : Option SinkAnswer) (r : List SinkReply) : rows.length = s.height.toNat →
      EmitEnd s u rows (resetBlock (recordTxn .endOfImage a r u))
  | rowRefused (m : Memory Byte) (bytes : List Byte) (r : List SinkReply) : rows.length < s.height.toNat →
      RowOf s rows.length bytes → BufferAfter s (rows ++ [bytes]) m →
      EmitEnd s u rows (takeFault .io (recordTxn (.row bytes) (some .fail) r (setRowBuf m u)))
  | rowReset (m : Memory Byte) (bytes : List Byte) (a : Option SinkAnswer) (r : List SinkReply) :
      rows.length < s.height.toNat → RowOf s rows.length bytes →
      EmitEnd s u rows (resetBlock (recordTxn (.row bytes) a r (setRowBuf m u)))

/-- Everything EMIT can do when it gives a next state. -/
theorem emitBody_next {s t : State} (h : emitBody s = .next t) :
    ∃ rows buf r, rows.length ≤ s.height.toNat ∧ RowsOf s rows ∧ BufferAfter s rows buf ∧
      EmitEnd s (emitProgress rows buf r (setRowCnt 0 s)) rows t := by
  have hf : ∀ f, emitRows 0 s.height.toNat (setRowCnt 0 s) = .fault f → f = .sinkSilent := by
    intro f hf; rw [emitBody, hf] at h; cases h
  obtain ⟨rows, buf, r, h1, h2, h3, -, h5, h6⟩ := emitRows_progress hf
  have hrows : RowsOf s rows := fun y hy => ⟨rows[y], List.getElem?_eq_getElem hy, by
    have := (h2 y _ (List.getElem?_eq_getElem hy)).congr (t := s) rfl rfl
    rwa [Nat.zero_add] at this⟩
  refine ⟨rows, buf, r, h1, hrows, h3, ?_⟩
  rw [emitBody, h5] at h
  rcases hn : s.height.toNat - rows.length with _ | n
  · have hl : rows.length = s.height.toNat := by omega
    rw [hn] at h
    simp only [emitRows, emitEnd] at h
    rcases sinkTransact_cases .endOfImage (fun t => .next (respond .ok 0 (setPhase .done t)))
      (fun t => .next (takeFault .encode t)) (emitProgress rows buf r (setRowCnt 0 s))
      with ⟨-, h7⟩ | ⟨r', -, h7⟩ | ⟨r', -, h7⟩ | ⟨x, a, r', -, -, h7⟩ <;> rw [h7] at h <;> cases h
    · exact .done r' hl
    · exact .endRefused r' hl
    · exact .endReset a r' hl
  · have hl : rows.length < s.height.toNat := by omega
    rw [hn, Nat.zero_add] at h
    rcases hb : buildRow rows.length (emitProgress rows buf r (setRowCnt 0 s)) with f | v
    · simp only [emitRows, hb] at h; cases h
    · obtain ⟨m, bytes, rfl, hm, hrow, hread⟩ := buildRow_next hb
      have hrow' : RowOf s rows.length bytes := hrow.congr rfl rfl
      rw [emitRows_succ hb hread] at h
      rcases sinkTransact_cases (.row bytes) (fun u => emitRows (rows.length + 1) n (setRowCnt (u.rowCnt + 1) u))
        (fun u => .next (takeFault .io u)) (setRowBuf m (emitProgress rows buf r (setRowCnt 0 s)))
        with ⟨-, h7⟩ | ⟨r', h8, h7⟩ | ⟨r', -, h7⟩ | ⟨x, a, r', -, -, h7⟩
      · rw [h7] at h; cases h
      · exact absurd h8 (h6 hl r')
      · rw [h7] at h; cases h
        exact .rowRefused m bytes r' hl hrow' (bufferAfter_built h3 hrow' hm)
      · rw [h7] at h; cases h
        exact .rowReset m bytes a r' hl hrow'

end Sys2Proof.Machine
end

