-- ==== Sys2Proof/Laws/Exec.lean ====
section
/-! SUPPORT. Everything a command can do when it gives a next state, one constructor per way: later proofs about all commands
are case splits on `Effect`, not on the text of the meanings (spec/40_run_control.md R60). -/

namespace Sys2Proof.Machine

/-- The ways a command leads from `s` to a next state. -/
inductive Effect (s : State) : Instr → State → Prop
  /-- Refused in phase ERROR (R101). -/
  | refused (i : Instr) : s.phase = .error → (i.wellFormed = true → anyPhase i = false) → Effect s i (answerStored s)
  /-- Not accepted in the phase, or no command at all: CmdError (R99). -/
  | outOfPhase (i : Instr) : s.phase ≠ .error → homePhase i ≠ some s.phase →
      (i.wellFormed = true → anyPhase i = false) → Effect s i (takeFault .cmd s)
  /-- RD (R90). -/
  | rd (n : Byte) (v : Word32) : readRegister n s = some v → Effect s (.rd n) (respond .ok v s)
  /-- RDPX of a decoded pixel (R91). -/
  | rdpx (i : Word32) (p : Pixel) : rasterValid s = true → i.toNat < pixelCount s → Memory.read s.raster i.toNat = some p →
      Effect s (.rdpx i) (respond .ok (packRgba32 p) s)
  /-- RDPX with no such pixel (R91). -/
  | noData (i : Word32) : ¬ (rasterValid s = true ∧ i.toNat < pixelCount s) →
      Effect s (.rdpx i) (respond .noData 0 s)
  | reset : Effect s .reset (respond .ok 0 (resetBlock s))
  | setw (v : Word32) : s.phase = .idle → Effect s (.setw v) (respond .ok 0 (setWidth v s))
  | seth (v : Word32) : s.phase = .idle → Effect s (.seth v) (respond .ok 0 (setHeight v s))
  | setbe (b : Bool) : s.phase = .idle → Effect s (.setbe b) (respond .ok 0 (setBe b s))
  /-- ConfigError (R95). -/
  | badSize : s.phase = .idle → s.width = 0 ∨ s.height = 0 ∨ maxPix s < pixelCount s →
      Effect s .start (takeFault .config s)
  | start : s.phase = .idle → s.width ≠ 0 → s.height ≠ 0 → pixelCount s ≤ maxPix s →
      Effect s .start (respond .ok 0
        (setPhase .loading (setRawLen 0 (setExpLen (BitVec.ofNat 64 (2 * pixelCount s)) s))))
  | pushStored (b : Byte) : s.phase = .loading → s.rawLen.toNat < s.expLen.toNat → s.rawLen.toNat < rawCap s →
      Effect s (.push b) (respond .ok 0 (countPushed (setRaw (Memory.write s.raw s.rawLen.toNat b) s)))
  | pushDropped (b : Byte) : s.phase = .loading → s.expLen.toNat ≤ s.rawLen.toNat →
      Effect s (.push b) (respond .ok 0 (countPushed s))
  /-- FormatError (R97). -/
  | badLength : s.phase = .loading → s.rawLen ≠ s.expLen → Effect s .decode (takeFault .format s)
  | decode (ps : List Pixel) (m : Memory Pixel) : s.phase = .loading → s.rawLen = s.expLen →
      decodePixels s 0 (pixelCount s) = .ok ps → Memory.writeRange .raster (rasterCap s) s.raster 0 ps = .ok m →
      Effect s .decode (respond .ok 0 (setPhase .decoded (setRaster m s)))
  | emit (rows : List (List Byte)) (buf : Memory Byte) (r : List SinkReply) (t : State) : s.phase = .decoded →
      rows.length ≤ s.height.toNat → RowsOf s rows → BufferAfter s rows buf →
      EmitEnd s (emitProgress rows buf r (setRowCnt 0 s)) rows t → Effect s .emit t

/-- The two ways a phase-bound command is turned away, and its own body. -/
theorem inPhase_effect {i : Instr} {p : Phase} {body : State → Result} {s t : State} (hi : homePhase i = some p)
    (ha : anyPhase i = false) (h : inPhase p body s = .next t) :
    Effect s i t ∨ (s.phase = p ∧ body s = .next t) := by
  rcases inPhase_next h with ⟨h1, rfl⟩ | ⟨-, h1, h2⟩ | ⟨h1, h2, rfl⟩
  · exact .inl (.refused i h1 fun _ => ha)
  · exact .inr ⟨h1, h2⟩
  · exact .inl (.outOfPhase i h1 (by rw [hi]; simpa using fun h => h2 h.symm) fun _ => ha)

/-- A register number RD does not know is above 8. -/
theorem readRegister_eq_none {n : Byte} {s : State} (h : readRegister n s = none) : 8 < n.toNat := by
  by_contra hn
  rcases (show n.toNat = 0 ∨ n.toNat = 1 ∨ n.toNat = 2 ∨ n.toNat = 3 ∨ n.toNat = 4 ∨ n.toNat = 5 ∨ n.toNat = 6 ∨
    n.toNat = 7 ∨ n.toNat = 8 by omega) with e | e | e | e | e | e | e | e | e <;> simp [readRegister, e] at h

/-- Everything a command can do. -/
theorem exec_effect {i : Instr} {s t : State} (h : exec i s = .next t) : Effect s i t := by
  cases i with
  | setw v =>
    simp only [exec, execSetw] at h
    rcases inPhase_effect (i := .setw v) rfl rfl h with h | ⟨h1, h2⟩
    · exact h
    · cases h2; exact .setw v h1
  | seth v =>
    simp only [exec, execSeth] at h
    rcases inPhase_effect (i := .seth v) rfl rfl h with h | ⟨h1, h2⟩
    · exact h
    · cases h2; exact .seth v h1
  | setbe b =>
    simp only [exec, execSetbe] at h
    rcases inPhase_effect (i := .setbe b) rfl rfl h with h | ⟨h1, h2⟩
    · exact h
    · cases h2; exact .setbe b h1
  | start =>
    rcases inPhase_effect (i := .start) rfl rfl h with h | ⟨h1, h2⟩
    · exact h
    · rcases startBody_next h2 with ⟨h3, rfl⟩ | ⟨h3, h4, h5, rfl⟩
      · exact .badSize h1 h3
      · exact .start h1 h3 h4 h5
  | push b =>
    rcases inPhase_effect (i := .push b) rfl rfl h with h | ⟨h1, h2⟩
    · exact h
    · rcases pushBody_next h2 with ⟨h3, h4, rfl⟩ | ⟨h3, rfl⟩
      · exact .pushStored b h1 h3 h4
      · exact .pushDropped b h1 h3
  | decode =>
    rcases inPhase_effect (i := .decode) rfl rfl h with h | ⟨h1, h2⟩
    · exact h
    · rcases decodeBody_next h2 with ⟨h3, rfl⟩ | ⟨h3, ps, m, h4, h5, rfl⟩
      · exact .badLength h1 h3
      · exact .decode ps m h1 h3 h4 h5
  | emit =>
    rcases inPhase_effect (i := .emit) rfl rfl h with h | ⟨h1, h2⟩
    · exact h
    · obtain ⟨rows, buf, r, h3, h4, h5, h6⟩ := emitBody_next h2
      exact .emit rows buf r t h1 h3 h4 h5 h6
  | rd n =>
    simp only [exec, execRd] at h
    split at h
    · next v hv => cases h; exact .rd n v hv
    · next hn =>
      have hwf : (Instr.rd n).wellFormed = true → anyPhase (.rd n) = false := fun hw => by
        have := readRegister_eq_none hn
        simp only [Instr.wellFormed, decide_eq_true_eq] at hw
        omega
      rcases runIllegal_next h with ⟨h1, rfl⟩ | ⟨h1, rfl⟩
      · exact .refused _ h1 hwf
      · exact .outOfPhase _ h1 (by simp [homePhase]) hwf
  | rdpx i =>
    simp only [exec, execRdpx] at h
    split_ifs at h with h1
    · split at h
      · cases h
      · next p hp => cases h; exact .rdpx i p h1.1 h1.2 (readRaster_eq_ok.1 hp).2
    · cases h; exact .noData i h1
  | reset => cases h; exact .reset

end Sys2Proof.Machine
end

