-- ==== Sys2Proof/Laws/Invariant.lean ====
section
/-! SUPPORT. What the shared operations do to the invariants `StateInv` and `SinkInv`, and that in a state of `StateInv`
nothing but the sink's silence stops a command. -/

namespace Sys2Proof.Machine

/-- The phase a run has reached, outside phase ERROR. -/
theorem reachedPhase_of_not_error {s : State} (h : s.phase ≠ .error) : reachedPhase s = s.phase := by
  simp [reachedPhase, h]

/-! ### StateInv -/

/-- `StateInv` looks at the registers, the memories and MAXPIX alone. -/
theorem stateInv_of {s t : State} (h : StateInv s) (hp : t.phase = s.phase) (he : t.err = s.err)
    (hf : t.fphase = s.fphase) (hb : t.be = s.be) (hw : t.width = s.width) (hh : t.height = s.height)
    (hr : t.rawLen = s.rawLen) (hx : t.expLen = s.expLen) (hc : t.rowCnt = s.rowCnt) (h1 : t.raw = s.raw)
    (h2 : t.raster = s.raster) (h3 : t.rowBuf = s.rowBuf) (hl : t.lastPixel = s.lastPixel) : StateInv t := by
  obtain ⟨a1, a2, a3, a4, a5, a6, a7, a8, a9, a10, a11, a12, a13, a14, a15, a16⟩ := h
  constructor <;>
    simp only [reachedPhase, rasterValid, pixelCount, maxPix, rawCap, rasterCap, rowBufCap, hp, he, hf, hb, hw, hh, hr, hx,
      hc, h1, h2, h3, hl] at * <;>
    assumption

theorem stateInv_respond {s : State} (h : StateInv s) (c : RespCode) (d : Word32) : StateInv (respond c d s) :=
  stateInv_of h rfl rfl rfl rfl rfl rfl rfl rfl rfl rfl rfl rfl rfl

theorem stateInv_resetBlock (s : State) : StateInv (resetBlock s) := by
  constructor <;> simp [reachedPhase, rasterValid, Memory.wf, Memory.within]

/-- Fault entry keeps `StateInv` (spec/60_exceptions.md R100). -/
theorem stateInv_takeFault {s : State} (h : StateInv s) (hp : s.phase ≠ .error) (k : Err) (hk : k ≠ .noErr) :
    StateInv (takeFault k s) := by
  have hr : reachedPhase (takeFault k s) = reachedPhase s := by rw [reachedPhase_of_not_error hp]; rfl
  have hv : rasterValid (takeFault k s) = rasterValid s := by unfold rasterValid; rw [hr]
  obtain ⟨a1, a2, a3, a4, a5, a6, a7, a8, a9, a10, a11, a12, a13, a14, a15, a16⟩ := h
  constructor
  · simp [hk]
  · simp [hk]
  · simpa using hp
  · rw [hr]; simpa [pixelCount, maxPix] using a4
  · rw [hr]; simpa using a5
  · simpa using a6
  · rw [hv]; simpa [pixelCount] using a7
  · simpa using a8
  · simp
  · simp
  · simpa using a11
  · simpa using a12
  · simpa using a13
  · simpa [rawCap, maxPix] using a14
  · simpa [rasterCap, maxPix] using a15
  · simpa [rowBufCap, maxPix] using a16

/-- Every end of an EMIT keeps `StateInv` (spec/42_row_emitter.md R80, R84, R85). -/
theorem stateInv_emitEnd {s t : State} {rows : List (List Byte)} {buf : Memory Byte} {r : List SinkReply} (h : StateInv s)
    (hp : s.phase = .decoded) (hl : rows.length ≤ s.height.toNat) (hb : BufferAfter s rows buf)
    (he : EmitEnd s (emitProgress rows buf r (setRowCnt 0 s)) rows t) : StateInv t := by
  have hlt := s.height.isLt
  have hcnt : (BitVec.ofNat 32 rows.length).toNat = rows.length := by rw [BitVec.toNat_ofNat, Nat.mod_eq_of_lt]; omega
  have hn : s.err = .noErr := by by_contra hc; have := h.err_iff.1 hc; rw [hp] at this; cases this
  have hfp := h.fphase_of_no_err hn
  have base : ∀ (m : Memory Byte) (q a r'), Memory.wf m → Memory.within (rowBufCap s) m → ∀ k, k ≠ Err.noErr →
      StateInv (takeFault k (recordTxn q a r' (setRowBuf m (emitProgress rows buf r (setRowCnt 0 s))))) := by
    intro m q a r' hm1 hm2 k hk
    obtain ⟨a1, a2, a3, a4, a5, a6, a7, a8, a9, a10, a11, a12, a13, a14, a15, a16⟩ := h
    have hr : reachedPhase (takeFault k (recordTxn q a r' (setRowBuf m (emitProgress rows buf r (setRowCnt 0 s))))) =
        .decoded := by
      simp [reachedPhase, hp]
    have hr' : reachedPhase s = .decoded := by simp [reachedPhase, hp]
    constructor
    · simp [hk]
    · simp [hk]
    · simp [hp]
    · intro _; simpa [pixelCount, maxPix] using a4 (by rw [hr']; decide)
    · rw [hr]; intro h; cases h
    · simpa using a6
    · intro _; simpa [pixelCount] using a7 (by simp [rasterValid, hr'])
    · simp only [takeFault_rowCnt, recordTxn_rowCnt, setRowBuf_rowCnt, emitProgress_rowCnt, setRowCnt_rowCnt,
        takeFault_height, recordTxn_height, setRowBuf_height, emitProgress_height, setRowCnt_height]
      rw [show (0 + BitVec.ofNat 32 rows.length : BitVec 32) = BitVec.ofNat 32 rows.length from by simp, hcnt]; exact hl
    · simp
    · simp
    · simpa using a11
    · simpa using a12
    · simpa using hm1
    · simpa [rawCap, maxPix] using a14
    · simpa [rasterCap, maxPix] using a15
    · simpa [rowBufCap, maxPix] using hm2
  cases he with
  | done r' hh =>
    obtain ⟨a1, a2, a3, a4, a5, a6, a7, a8, a9, a10, a11, a12, a13, a14, a15, a16⟩ := h
    have hr' : reachedPhase s = .decoded := by simp [reachedPhase, hp]
    have heq : (0#32 + BitVec.ofNat 32 rows.length) = s.height := by
      rw [BitVec.zero_add]; apply BitVec.eq_of_toNat_eq; rw [hcnt, hh]
    constructor
    · simp [hn]
    · simp [hfp]
    · simp [hfp]
    · intro _; simpa [pixelCount, maxPix] using a4 (by rw [hr']; decide)
    · simp [reachedPhase]
    · simpa using a6
    · intro _; simpa [pixelCount] using a7 (by simp [rasterValid, hr'])
    · have := congrArg BitVec.toNat heq; simp at this; simp [this]
    · intro _; simpa using heq
    · simp
    · simpa using a11
    · simpa using a12
    · simpa using hb.1 a13
    · simpa [rawCap, maxPix] using a14
    · simpa [rasterCap, maxPix] using a15
    · simpa [rowBufCap, maxPix] using hb.2.1 a16
  | endRefused r' hh => exact base buf _ _ _ (hb.1 h.rowBuf_wf) (hb.2.1 h.rowBuf_within) _ (by decide)
  | endReset => exact stateInv_resetBlock _
  | rowRefused m bytes r' hh hrow hm => exact base m _ _ _ (hm.1 h.rowBuf_wf) (hm.2.1 h.rowBuf_within) _ (by decide)
  | rowReset => exact stateInv_resetBlock _

/-! ### SinkInv -/

/-- `SinkInv` looks at STATUS, the dimensions, ROWCNT, RASTER and the transactions of this run alone. -/
theorem sinkInv_of {s t : State} (h : SinkInv s) (hp : t.phase = s.phase) (he : t.err = s.err) (hf : t.fphase = s.fphase)
  (hw : t.width = s.width) (hh : t.height = s.height) 
  (hc : t.rowCnt = s.rowCnt) (h2 : t.raster = s.raster) (hs : t.sinkSent = s.sinkSent) : SinkInv t := by
  obtain ⟨a1, a2, a3, a4, a5⟩ := h
  constructor <;> simp only [reachedPhase, RowsOf, RowOf, hp, he, hf, hw, hh, hc, h2, hs] at * <;> assumption

/-- Before EMIT, a state in which nothing was sent meets `SinkInv`. -/
theorem sinkInv_of_nothing_sent {s : State} (hs : s.sinkSent = []) (hp : s.phase ≠ .done)
    (hn : s.phase = .error → s.fphase ≠ .done ∧ s.err ≠ .io ∧ s.err ≠ .encode) : SinkInv s := by
  constructor
  · intro _; exact hs
  · intro _ _; exact hs
  · intro h _ h2; exact absurd h2 (hn h).2.1
  · intro h _ h2; exact absurd h2 (hn h).2.2
  · intro h; unfold reachedPhase at h; split_ifs at h with e
    · exact absurd h (hn e).1
    · exact absurd h hp

theorem sinkInv_takeFault {s : State} (h : SinkInv s) (hp : s.phase ≠ .error) (k : Err) (hk : k ≠ .io)
    (hk2 : k ≠ .encode) : SinkInv (takeFault k s) := by
  have hr : reachedPhase (takeFault k s) = s.phase := by simp [reachedPhase]
  have hr0 := reachedPhase_of_not_error hp
  obtain ⟨a1, a2, a3, a4, a5⟩ := h
  rw [hr0] at a1 a2 a5
  constructor
  · rw [hr]; simpa using a1
  · rw [hr]; intro e _; simpa using a2 e (fun h => hp h.1)
  · simp [hk]
  · simp [hk2]
  · rw [hr]; intro e
    obtain ⟨rows, h1, h2, h3⟩ := a5 e
    exact ⟨rows, by simpa using h1, by simpa [RowsOf, RowOf] using h2, by simpa using h3⟩

theorem sinkInv_resetBlock (s : State) : SinkInv (resetBlock s) := by
  constructor <;> simp [reachedPhase]

/-! ### Nothing but the sink stops a command (spec/20_memory.md R44) -/

/-- A valid Raster is whole. -/
theorem rasterWhole_of_valid {s : State} (h : StateInv s) (hv : rasterValid s = true) : RasterWhole s := by
  have : reachedPhase s ≠ .idle := by unfold rasterValid at hv; intro hh; rw [hh] at hv; simp at hv
  refine ⟨(h.sized this).2.2.1, fun i hi => ?_⟩
  obtain ⟨_, _, _, _, h⟩ := (h.raster_decoded hv).2 i hi; exact ⟨_, h⟩

theorem sized_of_loading {s : State} (h : StateInv s) (hp : s.phase = .loading) :
    1 ≤ s.width.toNat ∧ 1 ≤ s.height.toNat ∧ pixelCount s ≤ maxPix s ∧ s.expLen.toNat = 2 * pixelCount s :=
  h.sized (by simp [reachedPhase, hp])

/-- The row loop is never refused. -/
theorem emitRows_ne_refused (n : Nat) : ∀ (y : Nat) (s : State) (r : Refusal), emitRows y n s ≠ .refused r := by
  induction n with
  | zero => intro y s r; simp only [emitRows, emitEnd, sinkTransact]; split <;> simp
  | succ n ih =>
    intro y s r
    simp only [emitRows]
    split
    · simp
    · split
      · simp
      · unfold sinkTransact
        split
        · simp
        · exact ih _ _ _
        · simp
        · simp
        · simp
/-- A sink with more replies than rows is not silent. -/
theorem emitRows_not_silent {n : Nat} : ∀ {y s}, n < s.sinkReplies.length → emitRows y n s ≠ .fault .sinkSilent := by
  induction n with
  | zero =>
    intro y s h; simp only [emitRows, emitEnd]; unfold sinkTransact; split <;> rename_i e <;> simp [e] at h ⊢
  | succ n ih =>
    intro y s h
    rcases hb : buildRow y s with f | t
    · simp only [emitRows, hb]; intro hc; exact buildRow_ne_sinkSilent y s (by rw [hb]; simpa using hc)
    · obtain ⟨m, bytes, rfl, hm, hrow, hread⟩ := buildRow_next hb
      rw [emitRows_succ hb hread]
      unfold sinkTransact; split <;> rename_i e <;> simp only [setRowBuf_sinkReplies] at e
      · rw [e] at h; simp at h
      · apply ih; rw [e] at h; simpa using h
      · simp
      · simp
      · simp

/-- A command completes, or it is an EMIT whose sink is silent. -/
theorem exec_completes {i : Instr} {s : State} (h : StateInv s) :
    (∃ t, exec i s = .next t) ∨ (exec i s = .fault .sinkSilent ∧ i = .emit ∧ s.phase = .decoded) := by
  have ph : ∀ p body, (s.phase ≠ .error → s.phase = p → (∃ t, body s = .next t)) →
      ∃ t, inPhase p body s = .next t := by
    intro p body hb; unfold inPhase; split_ifs with a b; exact ⟨_, rfl⟩; exact hb a b; exact ⟨_, rfl⟩
  cases i with
  | setw v => simp only [exec, execSetw]; exact .inl (ph _ _ fun _ _ => ⟨_, rfl⟩)
  | seth v => simp only [exec, execSeth]; exact .inl (ph _ _ fun _ _ => ⟨_, rfl⟩)
  | setbe v => simp only [exec, execSetbe]; exact .inl (ph _ _ fun _ _ => ⟨_, rfl⟩)
  | start => exact .inl (ph _ _ fun _ _ => by unfold startBody; split_ifs <;> exact ⟨_, rfl⟩)
  | push b =>
    refine .inl (ph _ _ fun _ hp => ?_)
    have := sized_of_loading h hp
    unfold pushBody storePushed
    split_ifs with hh
    · have : writeRaw s.rawLen.toNat b s = .ok _ := writeRaw_eq_ok.2 ⟨by unfold rawCap; omega, rfl⟩
      rw [this]; exact ⟨_, rfl⟩
    · exact ⟨_, rfl⟩
  | decode =>
    refine .inl (ph _ _ fun _ hp => ?_)
    have hz := sized_of_loading h hp
    unfold decodeBody
    split_ifs with hh
    · exact ⟨_, rfl⟩
    · simp only [ne_eq, not_not] at hh
      have hraw : ∀ a, a < 2 * pixelCount s → ∃ b, readRaw a s = .ok b := fun a ha => by
        obtain ⟨b, hb⟩ := h.raw_held a (by rw [hh, hz.2.2.2]; simpa using ha)
        exact ⟨b, readRaw_eq_ok.2 ⟨by unfold rawCap; omega, hb⟩⟩
      have : ∀ n i, i + n ≤ pixelCount s → ∃ ps, decodePixels s i n = .ok ps := by
        intro n; induction n with
        | zero => intro i _; exact ⟨_, rfl⟩
        | succ n ih =>
          intro i hi
          obtain ⟨b0, e0⟩ := hraw (2 * i) (by omega)
          obtain ⟨b1, e1⟩ := hraw (2 * i + 1) (by omega)
          obtain ⟨ps, e⟩ := ih (i + 1) (by omega)
          exact ⟨_, by simp only [decodePixels, e0, e1, e]; rfl⟩
      obtain ⟨ps, hps⟩ := this (pixelCount s) 0 (by omega)
      have hl := (decodePixels_eq_ok.1 hps).1
      obtain ⟨m, hm⟩ := Memory.writeRange_ok (name := .raster) (cap := rasterCap s) (a := 0)
        (vs := ps) s.raster (by unfold rasterCap; omega)
      have : writeRaster ps s = .ok _ := writeRaster_eq_ok.2 ⟨m, hm, rfl⟩
      rw [hps]; simp only [this]; exact ⟨_, rfl⟩
  | emit =>
    rcases hx : exec .emit s with t | f | r
    · exact .inl ⟨t, rfl⟩
    · obtain ⟨_, hp, hf⟩ := inPhase_fault (show inPhase .decoded emitBody s = .fault f from hx)
      have hw := rasterWhole_of_valid h (by simp [rasterValid, reachedPhase, hp])
      have := emitRows_fault (s := setRowCnt 0 s) hw (by simp) hf
      exact .inr ⟨by rw [this], rfl, hp⟩
    · exfalso
      have hx : inPhase .decoded emitBody s = .refused r := hx
      unfold inPhase at hx; split_ifs at hx with a b
      exact emitRows_ne_refused _ _ _ _ hx
  | rd n => 
    refine .inl ?_
    simp only [exec, execRd]
    split
    · exact ⟨_, rfl⟩
    · unfold runIllegal; split_ifs <;> exact ⟨_, rfl⟩
  | rdpx j =>
    refine .inl ?_; simp only [exec, execRdpx]
    split_ifs with hh
    · have hw := rasterWhole_of_valid h hh.1
      obtain ⟨p, hp⟩ := hw.2 _ hh.2
      rw [readRaster_eq_ok.2 ⟨lt_of_lt_of_le hh.2 hw.1, hp⟩]; exact ⟨_, rfl⟩
    · exact ⟨_, rfl⟩
  | reset => exact .inl ⟨_, rfl⟩

end Sys2Proof.Machine
end

