-- ==== Sys2Proof/Laws/PerInstr.lean ====
section
/-! SUPPORT. Statements about every command as syntax, one lemma per constructor. -/

namespace Sys2Proof.Laws.OpcodeRow

/-- The word of the command is selected by the command's row of the opcode map (spec/30_encoding.md R52). -/
def Statement (i : Instr) : Prop := encode i &&& rowMask i = rowMatch i

theorem packWord_and (op a : BitVec 8) (arg b : BitVec 32) :
    packWord op arg &&& packWord a b = packWord (op &&& a) (arg &&& b) := by
  unfold packWord; exact BitVec.and_append

theorem setw (v : Word32) : Statement (.setw v) := by
  show packWord 0x01 v &&& packWord 0xFF 0 = packWord 0x01 0
  rw [packWord_and]; simp

theorem seth (v : Word32) : Statement (.seth v) := by
  show packWord 0x02 v &&& packWord 0xFF 0 = packWord 0x02 0
  rw [packWord_and]; simp

theorem setbe (b : Bool) : Statement (.setbe b) := by cases b <;> (unfold Statement; decide)

theorem start : Statement .start := by unfold Statement; decide

theorem push (b : Byte) : Statement (.push b) := by
  show packWord 0x05 (b.setWidth 32) &&& packWord 0xFF 0xFFFFFF00 = packWord 0x05 0
  rw [packWord_and]
  have : b.setWidth 32 &&& (0xFFFFFF00 : Word32) = 0 := by revert b; decide
  rw [this]; rfl

theorem decode : Statement .decode := by unfold Statement; decide

theorem emit : Statement .emit := by unfold Statement; decide

theorem rd (n : Byte) : Statement (.rd n) := by
  show packWord 0x08 (n.setWidth 32) &&& packWord 0xFF 0xFFFFFF00 = packWord 0x08 0
  rw [packWord_and]
  have : n.setWidth 32 &&& (0xFFFFFF00 : Word32) = 0 := by revert n; decide
  rw [this]; rfl

theorem rdpx (i : Word32) : Statement (.rdpx i) := by
  show packWord 0x09 i &&& packWord 0xFF 0 = packWord 0x09 0
  rw [packWord_and]; simp

theorem reset : Statement .reset := by unfold Statement; decide

end Sys2Proof.Laws.OpcodeRow
end

