-- ==== Sys2Proof/Laws/Words.lean ====
section
/-! SUPPORT. The two 40-bit words of the command port as pairs of fields (spec/30_encoding.md R48, R50). -/

namespace Sys2Proof

theorem packWord_toNat (op : Byte) (arg : Word32) : (packWord op arg).toNat = op.toNat * 2 ^ 32 + arg.toNat := by
  unfold packWord
  rw [BitVec.toNat_append, ← Nat.shiftLeft_add_eq_or_of_lt arg.isLt, Nat.shiftLeft_eq]

@[simp] theorem opField_packWord (op : Byte) (arg : Word32) : opField (packWord op arg) = op := by
  apply BitVec.eq_of_toNat_eq
  have := arg.isLt
  have := op.isLt
  rw [opField, BitVec.extractLsb'_toNat, packWord_toNat, Nat.shiftRight_eq_div_pow]
  omega

@[simp] theorem argField_packWord (op : Byte) (arg : Word32) : argField (packWord op arg) = arg := by
  apply BitVec.eq_of_toNat_eq
  have := arg.isLt
  rw [argField, BitVec.extractLsb'_toNat, packWord_toNat, Nat.shiftRight_eq_div_pow]
  omega

/-- Every word is its two fields. -/
theorem packWord_fields (w : PortWord) : packWord (opField w) (argField w) = w := by
  apply BitVec.eq_of_toNat_eq
  have := w.isLt
  rw [packWord_toNat, opField, argField, BitVec.extractLsb'_toNat, BitVec.extractLsb'_toNat,
    Nat.shiftRight_eq_div_pow, Nat.shiftRight_eq_div_pow]
  omega

/-- A byte widened to ARG has its must-be-zero bits zero and gives the byte back. -/
theorem extract_setWidth_byte (b : Byte) :
    (b.setWidth 32).extractLsb' 8 24 = 0 ∧ (b.setWidth 32).extractLsb' 0 8 = b := by
  revert b; decide

/-- ARG[31:8] is zero exactly for the values below 256. -/
theorem high24_eq_zero_iff (arg : Word32) : arg.extractLsb' 8 24 = 0 ↔ arg.toNat < 256 := by
  rw [← BitVec.toNat_inj, BitVec.extractLsb'_toNat, Nat.shiftRight_eq_div_pow, BitVec.ofNat_eq_ofNat,
    BitVec.toNat_ofNat, Nat.zero_mod]
  have := arg.isLt
  omega

/-- ARG[31:1] is zero exactly for the values below 2. -/
theorem high31_eq_zero_iff (arg : Word32) : arg.extractLsb' 1 31 = 0 ↔ arg.toNat < 2 := by
  rw [← BitVec.toNat_inj, BitVec.extractLsb'_toNat, Nat.shiftRight_eq_div_pow, BitVec.ofNat_eq_ofNat,
    BitVec.toNat_ofNat, Nat.zero_mod]
  have := arg.isLt
  omega

namespace Machine

theorem responseWord_toNat (c : RespCode) (d : Word32) :
    (responseWord c d).toNat = c.byte.toNat * 2 ^ 32 + d.toNat := by
  unfold responseWord
  rw [BitVec.toNat_append, ← Nat.shiftLeft_add_eq_or_of_lt d.isLt, Nat.shiftLeft_eq]

/-- A response word as a number. -/
theorem responseWord_eq_ofNat (c : RespCode) (d : Word32) :
    responseWord c d = BitVec.ofNat 40 (c.byte.toNat * 2 ^ 32 + d.toNat) := by
  rw [← responseWord_toNat, BitVec.ofNat_toNat, BitVec.setWidth_eq]

/-- The byte of a fault's response code is its code in STATUS.ERR (R50). -/
theorem byte_kind_toNat (k : Err) : (RespCode.kind k).byte.toNat = k.code.toNat := by cases k <;> rfl

/-- No response code is above 6 (R50). -/
theorem byte_toNat_le (c : RespCode) : c.byte.toNat ≤ 6 := by
  rcases c with _ | k | _
  · decide
  · cases k <;> decide
  · decide

end Machine

end Sys2Proof
end

