-- ==== Sys2Proof/Tests/Slice0.lean ====
section
/-! SUPPORT. Small tests, with every expected result from spec/95_test_vectors.md or from the rule a comment names, and for every
statement with hypotheses a state and operands that meet them (the theorems `witness_...`). -/

namespace Sys2Proof.Tests

open Sys2Proof.Machine

/-! ### States the tests start from -/

/-- The reset state with MAXPIX = 16. -/
def ready : State := { State.reset with lastPixel := 15 }

/-- `ready` with the dimensions set. -/
def sized (w h : Word32) : State := { ready with width := w, height := h }

/-- After SETW 1, SETH 1, START. -/
def loading : State := { sized 1 1 with phase := .loading, expLen := 2 }

/-- `loading` after PUSH 0x34, PUSH 0x12. -/
def loaded : State := { loading with raw := [(0, 0x34), (1, 0x12)], rawLen := 2 }

/-- `loaded` after DECODE: the state of vector V-D5. -/
def decoded : State := { loaded with phase := .decoded, raster := [(0, ⟨16, 66, 214, 0⟩)] }

/-- The state of example E8b before EMIT: width 1, height 2, the words 0xFFFF and 0x0000. -/
def tall : State :=
  { sized 1 2 with
    phase := .decoded
    expLen := 4
    rawLen := 4
    raw := [(0, 0xFF), (1, 0xFF), (2, 0), (3, 0)]
    raster := [(0, ⟨255, 255, 255, 255⟩), (1, ⟨0, 0, 0, 0⟩)] }

/-- After the EMIT of vector V-E1. -/
def done : State :=
  { decoded with
    phase := .done
    rowCnt := 1
    rowBuf := [(0, 0x10), (1, 0x42), (2, 0xD6), (3, 0)]
    response := some 0
    sinkSent := [rowAccepted [0x10, 0x42, 0xD6, 0], endAnswered .ok] }

/-- After a FormatError in LOADING. -/
def misloaded : State := { loading with phase := .error, err := .format, fphase := .loading }

/-- After the EMIT of vector V-E3. -/
def endRefused : State :=
  { done with phase := .error, err := .encode, fphase := .decoded, response := some 0x0400000000,
              sinkSent := [rowAccepted [0x10, 0x42, 0xD6, 0], endAnswered .fail] }

/-- `s` with the sink's answers. -/
def answered (rs : List SinkReply) (s : State) : State := { s with sinkReplies := rs }

/-- `s` with the word `w` presented next. -/
def place (w : Nat) (s : State) : State := s.withFetchWord 40 w

/-- Whether a result is a next state with the property. -/
def next? (r : Result) (p : State → Bool) : Bool :=
  match r with
  | .next t => p t
  | _ => false

/-! ### Well-formedness, decoding, encoding (spec/30_encoding.md R51 to R55) -/

/-- The one check of `wellFormed`: a register number above 8. -/
theorem test_wellFormed_rd : (Instr.rd 8).wellFormed = true ∧ (Instr.rd 9).wellFormed = false ∧ (Instr.rd 255).wellFormed = false := by
  decide

/-- OP 0000_0001, ARG = v. -/
theorem test_decode_setw : decode 0b0000000110000000000000000000000000000011 = .ok (.setw 0x80000003) := by decide

/-- OP 0000_0010, ARG = v. -/
theorem test_decode_seth : decode 0b0000001000000000000000000000000000000001 = .ok (.seth 1) := by decide

/-- OP 0000_0011, ARG[31:1] zero, ARG[0] = b. -/
theorem test_decode_setbe : decode 0b0000001100000000000000000000000000000001 = .ok (.setbe true) ∧
    decode 0b0000001100000000000000000000000000000000 = .ok (.setbe false) := by decide

/-- OP 0000_0100, ARG zero. -/
theorem test_decode_start : decode 0b0000010000000000000000000000000000000000 = .ok .start := by decide

/-- OP 0000_0101, ARG[31:8] zero, ARG[7:0] = b. -/
theorem test_decode_push : decode 0b0000010100000000000000000000000011111111 = .ok (.push 0xFF) := by decide

/-- OP 0000_0110, ARG zero. -/
theorem test_decode_decode : decode 0b0000011000000000000000000000000000000000 = .ok .decode := by decide

/-- OP 0000_0111, ARG zero. -/
theorem test_decode_emit : decode 0b0000011100000000000000000000000000000000 = .ok .emit := by decide

/-- OP 0000_1000, ARG[31:8] zero, ARG[7:0] = n. -/
theorem test_decode_rd : decode 0b0000100000000000000000000000000000001000 = .ok (.rd 8) := by decide

/-- OP 0000_1001, ARG = i. -/
theorem test_decode_rdpx : decode 0b0000100111111111111111111111111111111111 = .ok (.rdpx 0xFFFFFFFF) := by decide

/-- OP 0000_1010, ARG zero. -/
theorem test_decode_reset : decode 0b0000101000000000000000000000000000000000 = .ok .reset := by decide

/-- Vectors V-I1 to V-I8. -/
theorem test_decode_illegal :
    decode 0x0000000000 = .error .reservedOpcode ∧ decode 0x0B00000000 = .error .reservedOpcode ∧
    decode 0xFF00000000 = .error .reservedOpcode ∧ decode 0x0300000002 = .error .argNotZero ∧
    decode 0x0400000001 = .error .argNotZero ∧ decode 0x0500000100 = .error .argNotZero ∧
    decode 0x0800000009 = .error .noSuchRegister ∧ decode 0x0A00000001 = .error .argNotZero := by decide

/-- The words of the programs P1 and P3. -/
theorem test_encode :
    [Instr.setw 2, .seth 1, .setbe false, .start, .push 0xFF, .decode, .emit, .rd 3, .rdpx 0, .reset].map encode =
    [0x0100000002, 0x0200000001, 0x0300000000, 0x0400000000, 0x05000000FF, 0x0600000000, 0x0700000000, 0x0800000003,
      0x0900000000, 0x0A00000000] := by decide

/-- The table's word numbers are the command word's bits. -/
theorem test_tableWord : decodeTableWord 40 0x05000000FF = some (.push 0xFF) ∧ decodeTableWord 40 0x0500000100 = none := by decide

/-! ### Pixels (spec/20_memory.md R33, spec/41_decoder.md R72 to R75) -/

/-- Vectors V-W. -/
theorem test_word16 : word16 0x34 0x12 false = 0x1234 ∧ word16 0x34 0x12 true = 0x3412 ∧ word16 0x00 0x80 true = 0x0080 := by
  decide

/-- Vectors V-U. -/
theorem test_unpack5551 : unpack5551 0x1234 = ⟨2, 8, 26, 0⟩ ∧ unpack5551 0x07C0 = ⟨0, 31, 0, 0⟩ ∧
    unpack5551 0x8421 = ⟨16, 16, 16, 1⟩ := by decide

/-- Vectors V-R: the inputs that tell the formula from its look-alikes (R79), with 132 at 16 (spec/90_conflicts.md C1). -/
theorem test_rescale5 : [0, 1, 3, 7, 8, 16, 24, 28, 31].map (fun v => rescale5 v) = [0, 8, 25, 58, 66, 132, 197, 230, 255] ∧
    [0, 1].map (fun a => alpha8 a) = [0, 255] := by decide

/-- Vectors V-P. -/
theorem test_decodePixel : decodePixel 0x01 0x00 true = ⟨0, 33, 0, 0⟩ ∧ decodePixel 0x12 0x34 false = ⟨49, 132, 74, 0⟩ ∧
    decodePixel 0x21 0x84 false = ⟨132, 132, 132, 255⟩ ∧ packRgba32 ⟨16, 66, 214, 0⟩ = 0x00D64210 := by decide

/-! ### One step of each command -/

/-- Vector V-C2. -/
theorem test_setw : next? (step (place 0x01FFFFFFFF ready))
    (fun t => t.width = 0xFFFFFFFF ∧ t.height = 0 ∧ t.response = some 0) = true := by decide

/-- Vector V-I12. -/
theorem test_setw_out_of_phase : next? (step (place 0x0100000005 loading))
    (fun t => t.width = 1 ∧ t.response = some 0x0500000000 ∧ statusWord t.phase t.err t.fphase = 0x00010504) = true := by decide

/-- SETH 1 of program P1. -/
theorem test_seth : next? (step (place 0x0200000001 ready))
    (fun t => t.height = 1 ∧ t.width = 0 ∧ t.response = some 0) = true := by decide

/-- Vectors V-C3 and V-C4. -/
theorem test_setbe : next? (step (place 0x0300000001 ready)) (fun t => ctrlWord t.be = 1) = true ∧
    next? (step (place 0x0300000000 { ready with be := true })) (fun t => ctrlWord t.be = 0) = true := by decide

/-- Vector V-C11: a product equal to MAXPIX is accepted. -/
theorem test_start : next? (step (place 0x0400000000 (sized 4 4)))
    (fun t => t.expLen = 32 ∧ t.rawLen = 0 ∧ statusWord t.phase t.err t.fphase = 1 ∧ t.response = some 0) = true := by decide

/-- Vectors V-C9 and V-C12: no wrap-around, and a product above MAXPIX. -/
theorem test_start_config : next? (step (place 0x0400000000 { sized 0xFFFFFFFF 0xFFFFFFFF with lastPixel := 0xFFFFFFFF }))
      (fun t => t.response = some 0x0100000000 ∧ statusWord t.phase t.err t.fphase = 0x104 ∧ t.expLen = 0) = true ∧
    next? (step (place 0x0400000000 (sized 17 1))) (fun t => t.response = some 0x0100000000) = true := by decide

/-- Vector V-D1. -/
theorem test_push : next? (step (place 0x05000000FF loading))
    (fun t => t.raw = [(0, 0xFF)] ∧ t.rawLen = 1 ∧ t.response = some 0) = true := by decide

/-- Vector V-D4's third byte is counted and not stored; the count saturates (R20). -/
theorem test_push_dropped : next? (step (place 0x0500000003 loaded)) (fun t => t.raw = loaded.raw ∧ t.rawLen = 3) = true ∧
    next? (step (place 0x0500000003 { loaded with rawLen := 0xFFFFFFFFFFFFFFFF }))
      (fun t => t.rawLen = 0xFFFFFFFFFFFFFFFF) = true := by decide

/-- Vectors V-D5 and V-D6. -/
theorem test_decode : next? (step (place 0x0600000000 loaded))
      (fun t => t.raster = [(0, ⟨16, 66, 214, 0⟩)] ∧ t.phase = .decoded ∧ t.response = some 0) = true ∧
    next? (step (place 0x0600000000 { loaded with be := true })) (fun t => t.raster = [(0, ⟨49, 132, 74, 0⟩)]) = true := by decide

/-- Vector V-D2. -/
theorem test_decode_format : next? (step (place 0x0600000000 loading))
    (fun t => t.raster = [] ∧ t.response = some 0x0300000000 ∧ statusWord t.phase t.err t.fphase = 0x00010304) = true := by decide

/-- Example E8b: two rows of four bytes, then the end-of-image signal. -/
theorem test_emit : next? (step (place 0x0700000000 (answered [.answer .ok, .answer .ok, .answer .ok] tall)))
    (fun t => t.sinkSent = [rowAccepted [0xFF, 0xFF, 0xFF, 0xFF], rowAccepted [0, 0, 0, 0], endAnswered .ok] ∧
      t.rowCnt = 2 ∧ t.phase = .done ∧ t.response = some 0) = true := by decide

/-- Vectors V-E2 and V-E3. -/
theorem test_emit_refused : next? (step (place 0x0700000000 (answered [.answer .fail] decoded)))
      (fun t => t.sinkSent = [rowRefused [0x10, 0x42, 0xD6, 0]] ∧ t.rowCnt = 0 ∧ t.response = some 0x0200000000 ∧
        statusWord t.phase t.err t.fphase = 0x00020204) = true ∧
    next? (step (place 0x0700000000 (answered [.answer .ok, .answer .fail] decoded)))
      (fun t => t.sinkSent = endRefused.sinkSent ∧ t.rowCnt = 1 ∧ t.response = some 0x0400000000 ∧
        statusWord t.phase t.err t.fphase = 0x00020404) = true := by decide

/-- RD STATUS after a FormatError (R90), and RD of both halves of a 64-bit register (R12). -/
theorem test_rd : next? (step (place 0x0800000003 misloaded)) (fun t => t.response = some 0x0000010304) = true ∧
    next? (step (place 0x0800000005 { loaded with rawLen := 0x123456789 })) (fun t => t.response = some 1) = true ∧
    next? (step (place 0x0800000004 { loaded with rawLen := 0x123456789 })) (fun t => t.response = some 0x0023456789) = true := by
  decide

/-- Vectors V-X5, V-X6, V-X10, and V-X8's condition. -/
theorem test_rdpx : next? (step (place 0x0900000000 decoded)) (fun t => t.response = some 0x0000D64210) = true ∧
    next? (step (place 0x0900000001 decoded)) (fun t => t.response = some 0x0600000000) = true ∧
    next? (step (place 0x0900000000 misloaded)) (fun t => t.response = some 0x0600000000) = true ∧
    next? (step (place 0x0900000000 endRefused)) (fun t => t.response = some 0x0000D64210) = true := by decide

/-- RESET after a fault (R67): the registers cleared, nothing sent to the sink. -/
theorem test_reset : next? (step (place 0x0A00000000 endRefused))
    (fun t => t.width = 0 ∧ t.rawLen = 0 ∧ t.rowCnt = 0 ∧ t.raster = [] ∧ statusWord t.phase t.err t.fphase = 0 ∧
      t.response = some 0 ∧ sinkHistory t = sinkHistory endRefused) = true := by decide

/-- Vectors V-I15, and program P4's last line: CmdError out of phase, the stored kind in phase ERROR. -/
theorem test_refused : next? (step (place 0x0400000000 done))
      (fun t => t.response = some 0x0500000000 ∧ statusWord t.phase t.err t.fphase = 0x00030504) = true ∧
    next? (step (place 0x0000000000 misloaded)) (fun t => t.response = some 0x0300000000 ∧ t.fphase = .loading) = true := by decide

/-- The memories of the reset state are canonical. -/
theorem test_reset_memories : Memory.wf State.reset.raw ∧ Memory.wf State.reset.raster ∧ Memory.wf State.reset.rowBuf :=
  ⟨Memory.wf_nil, Memory.wf_nil, Memory.wf_nil⟩

/-! ### Program text (R57, R58) -/

/-- R57's example, a register name, a comment, a pseudo-command of R58. -/
theorem test_assemble :
    assembleLine ['P', 'U', 'S', 'H', ' ', '0', 'x', 'F', 'F'] = some [.push 0xFF] ∧
    assembleLine ['R', 'D', ' ', 'R', 'O', 'W', 'C', 'N', 'T', ' ', ';', ' ', 'a'] = some [.rd 8] ∧
    assembleLine ['P', 'U', 'S', 'H', 'B', ' ', '1', ',', ' ', '2'] = some [.push 1, .push 2] ∧
    assembleLine ['P', 'U', 'S', 'H', 'W', '.', 'B', 'E', ' ', '0', 'x', '1', '2', '3', '4'] = some [.push 0x12, .push 0x34] ∧
    assembleLine ['C', 'O', 'N', 'F', 'I', 'G', ' ', '2', ',', ' ', '1', ',', ' ', '0'] =
      some [.setw 2, .seth 1, .setbe false] := by decide

/-- Operands that do not fit are assembly errors. -/
theorem test_assemble_error :
    assembleLine ['P', 'U', 'S', 'H', ' ', '2', '5', '6'] = none ∧ assembleLine ['R', 'D', ' ', '9'] = none ∧
    assembleLine ['S', 'E', 'T', 'B', 'E', ' ', '2'] = none ∧ assembleLine ['S', 'T', 'A', 'R', 'T', ' ', '0'] = none := by decide

/-! ### Witnesses: the hypotheses of each statement hold together, each clause at the edge of its range -/

theorem witness_DecodeOfEncode : (Instr.rd 8).wellFormed = true ∧ (Instr.setw 0xFFFFFFFF).wellFormed = true := by decide

theorem witness_EncodeOfDecodedWord : decode 0x0800000008 = .ok (.rd 8) := by decide

theorem witness_DecodeFollowsOpcodeMap : 
    (decode 0x0800000008 = .ok (.rd 8) ∧ ∃ n, Instr.rd 8 = .rd n) ∧
    ((0x0800000008 : PortWord) &&& rowMask (.rd 0) = rowMatch (.rd 0) ∧ (0x0800000008 : PortWord).toNat % 256 ≤ 8) ∧
    ((0x05000000FF : PortWord) &&& rowMask (.push 0) = rowMatch (.push 0)) ∧
    ((0x0300000001 : PortWord) &&& rowMask (.setbe false) = rowMatch (.setbe false)) :=
  ⟨⟨by decide, 8, rfl⟩, by decide⟩

theorem witness_IllegalWordsAreNamed :
    (∃ op : Byte, op.toNat = 0) ∧ (∃ op : Byte, op.toNat = 11) ∧ (∃ op : Byte, op.toNat = 255) ∧
    (∃ (op : Byte) (arg : Word32), op = 4 ∧ arg ≠ 0) ∧ (∃ (op : Byte) (arg : Word32), op = 3 ∧ arg.toNat = 2) ∧
    (∃ (op : Byte) (arg : Word32), op = 5 ∧ arg.toNat = 256) ∧ (∃ (op : Byte) (arg : Word32), op = 8 ∧ arg.toNat = 256) ∧
    (∃ (op : Byte) (arg : Word32), op = 8 ∧ arg.toNat = 9) ∧ (∃ (op : Byte) (arg : Word32), op = 8 ∧ arg.toNat = 255) :=
  ⟨⟨0, rfl⟩, ⟨11, rfl⟩, ⟨255, rfl⟩, ⟨4, 1, by decide⟩, ⟨3, 2, by decide⟩, ⟨5, 256, by decide⟩, ⟨8, 256, by decide⟩,
    ⟨8, 9, by decide⟩, ⟨8, 255, by decide⟩⟩

theorem witness_TextSpellsLegalWordsOnly :
    assembleWords [['R', 'D', ' ', '8'], ['P', 'U', 'S', 'H', 'B', ' ', '1', ',', ' ', '2']] =
      some [0x0800000008, 0x0500000001, 0x0500000002] ∧
    (0x0500000002 : PortWord) ∈ [(0x0800000008 : PortWord), 0x0500000001, 0x0500000002] := by decide

theorem witness_PseudoCommandsExpand : ([0x34, 0x12] : List Byte)[1]? = some 0x12 := by decide

theorem witness_StepRunsDecodedCommand :
    (place 0x0100000002 ready).hostQueue = .command 0x0100000002 :: [] ∧ decode 0x0100000002 = .ok (.setw 2) := by decide

theorem witness_IllegalWordTakesCmdError :
    ((place 0x0B00000000 ready).hostQueue = .command 0x0B00000000 :: [] ∧ decode 0x0B00000000 = .error .reservedOpcode) ∧
    (place 0x0B00000000 ready).phase ≠ .error ∧ (place 0x0B00000000 misloaded).hostQueue = .command 0x0B00000000 :: [] ∧
    (place 0x0B00000000 misloaded).phase = .error := by decide

theorem witness_WaitingChangesNothing : ready.hostQueue = [] := by decide

theorem witness_ResetLeavesResetValues : ({ decoded with hostQueue := [.hardReset] } : State).hostQueue = .hardReset :: [] := by
  decide

theorem witness_ResetCommand : (1 : Word32) ≠ 0 := by decide

theorem witness_HardResetAgreesWithResetCommand :
    ∃ t, step { decoded with hostQueue := .hardReset :: [] } = .next t := ⟨_, rfl⟩

theorem witness_SetwWritesWidth : ready.phase = .idle ∧ (loading.phase ≠ .idle ∧ loading.phase ≠ .error) ∧
    misloaded.phase = .error := by decide

theorem witness_SethWritesHeight : (sized 5 0).phase = .idle ∧ (decoded.phase ≠ .idle ∧ decoded.phase ≠ .error) ∧
    endRefused.phase = .error := by decide

theorem witness_SetbeWritesByteOrder : ready.phase = .idle ∧ (done.phase ≠ .idle ∧ done.phase ≠ .error) ∧
    misloaded.phase = .error ∧ 2 ≤ (2 : Word32).toNat := by decide

theorem witness_StartValidatesDimensions :
    ((sized 0 1).phase = .idle ∧ (sized 0 1).width.toNat = 0) ∧ (sized 1 0).height.toNat = 0 ∧
    maxPix (sized 17 1) < (sized 17 1).width.toNat * (sized 17 1).height.toNat ∧
    ((sized 4 4).phase = .idle ∧ 1 ≤ (sized 4 4).width.toNat ∧ 1 ≤ (sized 4 4).height.toNat ∧
      (sized 4 4).width.toNat * (sized 4 4).height.toNat = maxPix (sized 4 4)) ∧
    ∃ t, exec .start (sized 17 1) = .next t ∧ (sized 17 1).phase ≠ .error ∧ t.phase = .error ∧ t.err = .config :=
  ⟨by decide, by decide, by decide, by decide, _, rfl, by decide, rfl, rfl⟩

theorem witness_PushStoresAndCounts :
    (loading.phase = .loading ∧ loading.rawLen.toNat < loading.expLen.toNat ∧ loading.expLen.toNat ≤ rawCap loading) ∧
    (loaded.phase = .loading ∧ loaded.expLen.toNat = loaded.rawLen.toNat) ∧
    ({ loaded with rawLen := 0xFFFFFFFFFFFFFFFF } : State).rawLen.toNat = 2 ^ 64 - 1 ∧
    (ready.phase ≠ .loading ∧ ready.phase ≠ .error) ∧ misloaded.phase = .error ∧ 256 ≤ (256 : Word32).toNat := by decide

theorem loaded_whole : RawWhole loaded :=
  ⟨by decide, fun a ha => by
    have : a < 2 := ha
    interval_cases a <;> exact ⟨_, rfl⟩⟩

theorem witness_DecodeFillsRaster :
    (loading.phase = .loading ∧ loading.rawLen ≠ loading.expLen) ∧
    (loaded.phase = .loading ∧ loaded.rawLen = loaded.expLen ∧ RawWhole loaded) ∧
    (Memory.read loaded.raw (2 * 0) = some 0x34 ∧ Memory.read loaded.raw (2 * 0 + 1) = some 0x12 ∧ 0 < pixelCount loaded) ∧
    pixelCount loaded ≤ 1 ∧ (done.phase ≠ .loading ∧ done.phase ≠ .error) ∧ misloaded.phase = .error :=
  ⟨by decide, ⟨rfl, by decide, loaded_whole⟩, by decide, by decide, by decide, rfl⟩

theorem witness_PixelLaws :
    ((30 : BitVec 5).toNat < (31 : BitVec 5).toNat ∧ (0 : BitVec 5).toNat < (1 : BitVec 5).toNat) ∧
    ∃ s, s.phase = .loading ∧ s.rawLen = s.expLen ∧ pixelCount s ≤ maxPix s ∧
      ∀ a, a < 2 * pixelCount s → Memory.read s.raw a = some 0 :=
  ⟨by decide, { loaded with raw := [(0, 0), (1, 0)] }, rfl, rfl, by decide, fun a ha => by
    have : a < 2 := ha
    interval_cases a <;> rfl⟩

theorem tall_whole : RasterWhole tall :=
  ⟨by decide, fun i hi => by
    have : i < 2 := hi
    interval_cases i <;> exact ⟨_, rfl⟩⟩

/-- `tall` with the sink's answers is `tall` to the Raster. -/
theorem tall_answered_whole (rs : List SinkReply) : RasterWhole (answered rs tall) := tall_whole

theorem witness_EmitSucceeds :
    ∃ s rest, s.phase = .decoded ∧ RasterWhole s ∧
      s.sinkReplies = List.replicate (s.height.toNat + 1) (.answer .ok) ++ rest :=
  ⟨answered [.answer .ok, .answer .ok, .answer .ok, .resetFirst] tall, [.resetFirst], rfl, tall_answered_whole _, by decide⟩

theorem witness_EmittedBytesAreTheRaster :
    ∃ s rest i, s.phase = .decoded ∧ RasterWhole s ∧
      s.sinkReplies = List.replicate (s.height.toNat + 1) (.answer .ok) ++ rest ∧ i < pixelCount s :=
  ⟨answered [.answer .ok, .answer .ok, .answer .ok] tall, [], 1, rfl, tall_answered_whole _, by decide, by decide⟩

theorem witness_EmitAbortsOnRefusedRow :
    (∃ s y rest, s.phase = .decoded ∧ RasterWhole s ∧ y = 0 ∧ y < s.height.toNat ∧
      s.sinkReplies = List.replicate y (.answer .ok) ++ .answer .fail :: rest) ∧
    (∃ s y rest, s.phase = .decoded ∧ RasterWhole s ∧ y + 1 = s.height.toNat ∧ y < s.height.toNat ∧
      s.sinkReplies = List.replicate y (.answer .ok) ++ .answer .fail :: rest) :=
  ⟨⟨answered [.answer .fail] tall, 0, [], rfl, tall_answered_whole _, rfl, by decide, by decide⟩,
    ⟨answered [.answer .ok, .answer .fail] tall, 1, [], rfl, tall_answered_whole _, by decide, by decide, by decide⟩⟩

theorem witness_EmitRefusedAtTheEnd :
    ∃ s rest, s.phase = .decoded ∧ RasterWhole s ∧
      s.sinkReplies = List.replicate s.height.toNat (.answer .ok) ++ .answer .fail :: rest :=
  ⟨answered [.answer .ok, .answer .ok, .answer .fail] tall, [], rfl, tall_answered_whole _, by decide⟩

theorem witness_EmitHangsOnSilentSink :
    (∃ s, s.phase = .decoded ∧ RasterWhole s ∧ 0 ≤ s.height.toNat ∧ s.sinkReplies = List.replicate 0 (.answer .ok)) ∧
    (∃ s k, s.phase = .decoded ∧ RasterWhole s ∧ k = s.height.toNat ∧ s.sinkReplies = List.replicate k (.answer .ok)) :=
  ⟨⟨answered [] tall, rfl, tall_answered_whole _, by decide, by decide⟩,
    ⟨answered [.answer .ok, .answer .ok] tall, 2, rfl, tall_answered_whole _, by decide, by decide⟩⟩

theorem witness_HardResetDuringEmit :
    (∃ s k x a rest, s.phase = .decoded ∧ RasterWhole s ∧ k < s.height.toNat ∧
      s.sinkReplies = List.replicate k (.answer .ok) ++ x :: rest ∧ (x = .resetFirst ∧ a = (none : Option SinkAnswer))) ∧
    (∃ s k x a rest, s.phase = .decoded ∧ RasterWhole s ∧ k = s.height.toNat ∧
      s.sinkReplies = List.replicate k (.answer .ok) ++ x :: rest ∧ ∃ b, x = .answerThenReset b ∧ a = some b) :=
  ⟨⟨answered [.resetFirst] tall, 0, .resetFirst, none, [], rfl, tall_answered_whole _, by decide, by decide, rfl, rfl⟩,
    ⟨answered [.answer .ok, .answer .ok, .answerThenReset .ok] tall, 2, .answerThenReset .ok, some .ok, [], rfl,
      tall_answered_whole _, by decide, by decide, .ok, rfl, rfl⟩⟩

/-- With success, with a refused row, with a hardware reset. -/
theorem witness_EmitSendsRowsInOrder :
    tall.phase = .decoded ∧ (∃ t, exec .emit (answered [.answer .ok, .answer .ok, .answer .ok] tall) = .next t) ∧
    (∃ t, exec .emit (answered [.answer .ok, .answer .fail] tall) = .next t) ∧
    (∃ t, exec .emit (answered [.resetFirst] tall) = .next t) := ⟨rfl, ⟨_, rfl⟩, ⟨_, rfl⟩, ⟨_, rfl⟩⟩

/-- In DECODED, out of phase, in phase ERROR. -/
theorem witness_EmitFrame :
    (∃ t, tall.phase = .decoded ∧ exec .emit (answered [.answer .ok, .answer .fail] tall) = .next t ∧
      4 * tall.width.toNat ≤ 4) ∧
    (∃ t, done.phase ≠ .decoded ∧ done.phase ≠ .error ∧ exec .emit done = .next t) ∧
    (∃ t, misloaded.phase = .error ∧ exec .emit misloaded = .next t) :=
  ⟨⟨_, rfl, rfl, by decide⟩, ⟨_, by decide, by decide, rfl⟩, ⟨_, rfl, rfl⟩⟩

theorem witness_RdAnswersTheRegister :
    (0 : Byte).toNat ≤ 8 ∧ (8 : Byte).toNat ≤ 8 ∧ 9 ≤ (9 : Byte).toNat ∧ 256 ≤ (256 : Word32).toNat := by decide

theorem endRefused_whole : RasterWhole endRefused :=
  ⟨by decide, fun i hi => by
    have : i < 1 := hi
    interval_cases i; exact ⟨_, rfl⟩⟩

theorem witness_RdpxAnswersThePixel :
    (tall.phase = .decoded ∧ (1 : Word32).toNat < tall.width.toNat * tall.height.toNat ∧ RasterWhole tall) ∧
    done.phase = .done ∧
    ((endRefused.phase = .error ∧ endRefused.fphase = .decoded) ∧ (0 : Word32).toNat < pixelCount endRefused ∧
      RasterWhole endRefused) ∧
    (¬ (misloaded.phase = .decoded ∨ misloaded.phase = .done ∨
      (misloaded.phase = .error ∧ (misloaded.fphase = .decoded ∨ misloaded.fphase = .done)))) ∧
    tall.width.toNat * tall.height.toNat ≤ (2 : Word32).toNat :=
  ⟨⟨rfl, by decide, tall_whole⟩, rfl, ⟨⟨rfl, rfl⟩, by decide, endRefused_whole⟩, by decide, by decide⟩

theorem witness_ReadBackChangesNothing :
    ((Instr.rd 8).wellFormed = true ∧ (∃ n, Instr.rd 8 = .rd n) ∧ ∃ t, exec (.rd 8) misloaded = .next t) ∧
    ((Instr.rdpx 0).wellFormed = true ∧ (∃ j, Instr.rdpx 0 = .rdpx j) ∧ ∃ t, exec (.rdpx 0) decoded = .next t) :=
  ⟨⟨rfl, ⟨8, rfl⟩, _, rfl⟩, ⟨rfl, ⟨0, rfl⟩, _, rfl⟩⟩

theorem witness_CommandOutOfPhase :
    homePhase (.push 0) = some .loading ∧ done.phase ≠ .loading ∧ done.phase ≠ .error := by decide

theorem witness_ErrorPhaseRefusesWork :
    (misloaded.phase = .error ∧ (place 0x0700000000 misloaded).hostQueue = .command 0x0700000000 :: []) ∧
    (∀ i, decode 0x0700000000 = .ok i → anyPhase i = false) ∧ (∀ i, decode 0x0800000009 = .ok i → anyPhase i = false) :=
  ⟨by decide, fun i h => by
    have : decode 0x0700000000 = .ok .emit := by decide
    rw [this] at h; cases h; rfl, fun i h => by
    have : decode 0x0800000009 = .error .noSuchRegister := by decide
    rw [this] at h; cases h⟩

theorem witness_FirstFaultIsKept :
    (∃ t, misloaded.phase = .error ∧ step (place 0x0700000000 misloaded) = .next t) ∧
    (∃ t, step (place 0x0A00000000 misloaded) = .next t ∧ t.phase = .idle) := ⟨⟨_, rfl, rfl⟩, ⟨_, rfl, rfl⟩⟩

theorem witness_PhaseChanges :
    (∃ t, exec .start (sized 1 1) = .next t ∧ t.phase ≠ (sized 1 1).phase) ∧
    (∃ t, exec .decode loaded = .next t ∧ t.phase ≠ loaded.phase) ∧
    (∃ t, exec .emit (answered [.answer .ok, .answer .ok] decoded) = .next t ∧ t.phase ≠ decoded.phase) ∧
    (∃ t, exec .decode loading = .next t ∧ t.phase ≠ loading.phase) ∧
    (∃ t, exec .reset done = .next t ∧ t.phase ≠ done.phase) ∧
    (∃ t, exec .emit (answered [.resetFirst] decoded) = .next t ∧ t.phase ≠ decoded.phase) :=
  ⟨⟨_, rfl, by decide⟩, ⟨_, rfl, by decide⟩, ⟨_, rfl, by decide⟩, ⟨_, rfl, by decide⟩, ⟨_, rfl, by decide⟩,
    ⟨_, rfl, by decide⟩⟩

theorem witness_StepMovesPhaseForward : ∃ t, step (place 0x0600000000 loaded) = .next t := ⟨_, rfl⟩

theorem witness_ConfigurationIsFrozen :
    ∃ t, step (place 0x0600000000 loaded) = .next t ∧ loaded.phase ≠ .idle ∧ t.phase ≠ .idle :=
  ⟨_, rfl, by decide, by decide⟩

/-- One fault of each kind. -/
theorem witness_FaultsByCommandAndPhase :
    (∃ t, exec .start ready = .next t ∧ ready.phase ≠ .error ∧ t.phase = .error) ∧
    (∃ t, exec .emit (answered [.answer .fail] decoded) = .next t ∧ decoded.phase ≠ .error ∧ t.phase = .error) ∧
    (∃ t, exec .decode loading = .next t ∧ loading.phase ≠ .error ∧ t.phase = .error) ∧
    (∃ t, exec .emit (answered [.answer .ok, .answer .fail] decoded) = .next t ∧ t.phase = .error) ∧
    (∃ t, exec .emit done = .next t ∧ done.phase ≠ .error ∧ t.phase = .error) ∧
    (∃ t, exec (.rd 9) ready = .next t ∧ ready.phase ≠ .error ∧ t.phase = .error) :=
  ⟨⟨_, rfl, by decide, rfl⟩, ⟨_, rfl, by decide, rfl⟩, ⟨_, rfl, by decide, rfl⟩, ⟨_, rfl, rfl⟩, ⟨_, rfl, by decide, rfl⟩,
    ⟨_, rfl, by decide, rfl⟩⟩

/-- `EveryCommandIsAnswered` and `CommandsLeaveTheHostAlone`: a command that is answered, and one that a hardware reset ends. -/
theorem witness_EveryCommandIsAnswered :
    (∃ t, exec (.setw 5) ready = .next t) ∧ ∃ t, exec .emit (answered [.resetFirst] decoded) = .next t ∧ t.response = none :=
  ⟨⟨_, rfl⟩, ⟨_, rfl, rfl⟩⟩

theorem witness_OnlyEmitUsesTheSinkPort :
    (∃ t, exec .decode loaded = .next t ∧ Instr.decode ≠ .emit) ∧ ∃ t, exec .emit done = .next t ∧ done.phase ≠ .decoded :=
  ⟨⟨_, rfl, by decide⟩, ⟨_, rfl, by decide⟩⟩

theorem witness_CommandsLeaveTheHostAlone : ∃ t, exec .reset (place 0x0400000000 done) = .next t := ⟨_, rfl⟩

theorem witness_SinkHistoryOnlyGrows : ∃ t, step (place 0x0700000000 (answered [.answer .ok, .answer .ok] decoded)) = .next t :=
  ⟨_, rfl⟩

theorem witness_CanonicalMemoriesAreEqual :
    Memory.wf [(0, (1 : Byte)), (3, 2)] ∧ ∀ a, Memory.read [(0, (1 : Byte)), (3, 2)] a = Memory.read [(0, (1 : Byte)), (3, 2)] a :=
  ⟨by decide, fun _ => rfl⟩

theorem witness_RowBufIsUnobservable :
    (∃ t, exec .emit (answered [.answer .ok, .answer .ok] decoded) = .next t) ∧ exec .emit decoded = .fault .sinkSilent :=
  ⟨⟨_, rfl⟩, rfl⟩

theorem witness_RawIsUnobservableOutsideLoading :
    (decoded.phase ≠ .loading ∧ ∃ t, exec .emit (answered [.answer .ok, .answer .ok] decoded) = .next t) ∧
    exec .emit decoded = .fault .sinkSilent := ⟨⟨by decide, _, rfl⟩, rfl⟩

/-- A state after a refused end-of-image signal meets the invariants. -/
theorem endRefused_inv : StateInv endRefused where
  err_iff := by decide
  fphase_of_no_err := by decide
  fphase_ne_error := by decide
  sized := by decide
  idle_zero := by decide
  raw_held a ha := by
    have : a < 2 := ha
    interval_cases a <;> exact ⟨_, rfl⟩
  raster_decoded _ := ⟨rfl, fun i hi => by
    have : i < 1 := hi
    interval_cases i; exact ⟨_, _, rfl, rfl, by decide⟩⟩
  rowCnt_le := by decide
  rowCnt_done := by decide
  rowCnt_zero := by decide
  raw_wf := by decide
  raster_wf := by decide
  rowBuf_wf := by decide
  raw_within := by decide
  raster_within := by decide
  rowBuf_within := by decide

/-- The one row of `endRefused`. -/
theorem endRefused_row : RowOf endRefused 0 [0x10, 0x42, 0xD6, 0] :=
  ⟨by decide, fun x hx => by
    have : x < 1 := hx
    interval_cases x; exact ⟨_, rfl, rfl, rfl, rfl, rfl⟩⟩

theorem endRefused_sinkInv : SinkInv endRefused where
  before_decoded := by decide
  not_emitted := by decide
  row_failed _ _ h := absurd h (by decide)
  end_failed _ _ _ := ⟨[[0x10, 0x42, 0xD6, 0]], by decide, fun y hy => by
    have : y < 1 := hy
    interval_cases y; exact ⟨_, rfl, endRefused_row⟩, rfl⟩
  complete h := absurd h (by decide)

theorem witness_StepKeepsInvariants : StateInv endRefused ∧ ∃ t, step endRefused = .next t := ⟨endRefused_inv, _, rfl⟩

theorem witness_StepKeepsSinkInvariants : SinkInv endRefused ∧ ∃ t, step endRefused = .next t :=
  ⟨endRefused_sinkInv, _, rfl⟩

theorem witness_NoImageInPhaseError :
    StateInv endRefused ∧ SinkInv endRefused ∧ endedBadly endRefused = true ∧ endRefused.fphase ≠ .done ∧
      ∃ x, x ∈ endRefused.sinkSent ∧ x.request = .endOfImage :=
  ⟨endRefused_inv, endRefused_sinkInv, by decide, by decide, endAnswered .fail, by decide, rfl⟩

/-- `tall` meets the invariants. -/
theorem tall_inv : StateInv tall where
  err_iff := by decide
  fphase_of_no_err := by decide
  fphase_ne_error := by decide
  sized := by decide
  idle_zero := by decide
  raw_held a ha := by
    have : a < 4 := ha
    interval_cases a <;> exact ⟨_, rfl⟩
  raster_decoded _ := ⟨rfl, fun i hi => by
    have : i < 2 := hi
    interval_cases i <;> exact ⟨_, _, rfl, rfl, by decide⟩⟩
  rowCnt_le := by decide
  rowCnt_done := by decide
  rowCnt_zero := by decide
  raw_wf := by decide
  raster_wf := by decide
  rowBuf_wf := by decide
  raw_within := by decide
  raster_within := by decide
  rowBuf_within := by decide

/-- The invariants do not look at what the host and the sink have yet to do. -/
theorem tall_waiting_inv (q : List HostEvent) (rs : List SinkReply) :
    StateInv { tall with hostQueue := q, sinkReplies := rs } :=
  ⟨tall_inv.err_iff, tall_inv.fphase_of_no_err, tall_inv.fphase_ne_error, tall_inv.sized, tall_inv.idle_zero, tall_inv.raw_held,
    tall_inv.raster_decoded, tall_inv.rowCnt_le, tall_inv.rowCnt_done, tall_inv.rowCnt_zero, tall_inv.raw_wf,
    tall_inv.raster_wf, tall_inv.rowBuf_wf, tall_inv.raw_within, tall_inv.raster_within, tall_inv.rowBuf_within⟩

theorem witness_OnlyASilentSinkStopsTheMachine :
    ∃ s, StateInv s ∧ step s = .fault .sinkSilent := ⟨_, tall_waiting_inv [.command 0x0700000000] [], rfl⟩

theorem witness_EveryCommandCompletes :
    ∃ s, Instr.emit.wellFormed = true ∧ StateInv s ∧ s.phase = .decoded ∧ s.sinkReplies.length = s.height.toNat + 1 :=
  ⟨_, rfl, tall_waiting_inv [] [.answer .ok, .answer .ok, .answer .ok], rfl, by decide⟩

theorem witness_PushesFillRawInOrder :
    ∃ s, s.phase = .loading ∧ s.rawLen = 0 ∧ s.expLen.toNat ≤ rawCap s ∧
      s.hostQueue = presented (pushCommands [1, 2, 3]) ++ [HostEvent.hardReset] :=
  ⟨{ loading with hostQueue := presented (pushCommands [1, 2, 3]) ++ [.hardReset] }, rfl, rfl, by decide, rfl⟩

theorem witness_GoodRunDeliversTheImage :
    ∃ s, ResetValues s ∧ 1 ≤ (1 : Word32).toNat ∧ (1 : Word32).toNat * (1 : Word32).toNat ≤ maxPix s ∧
      ([0x34, 0x12] : List Byte).length = 2 * ((1 : Word32).toNat * (1 : Word32).toNat) ∧
      s.hostQueue = presented (configCommands 1 1 false ++ .start :: pushCommands [0x34, 0x12] ++ [.decode, .emit]) ++ [] ∧
      s.sinkReplies = List.replicate ((1 : Word32).toNat + 1) (.answer .ok) ++ [] :=
  ⟨{ ready with
      hostQueue := presented (configCommands 1 1 false ++ .start :: pushCommands [0x34, 0x12] ++ [.decode, .emit]) ++ []
      sinkReplies := [.answer .ok, .answer .ok] },
    ⟨rfl, rfl, rfl, rfl, rfl, rfl, rfl, rfl, rfl, fun _ => rfl, fun _ => rfl, fun _ => rfl, rfl⟩,
    by decide, by decide, by decide, rfl, by decide⟩

end Sys2Proof.Tests
end

section
/-! The reset values and the codes of the status fields (spec/10_state.md R15, R16, R27). -/

namespace Sys2Proof.Machine

theorem resetValues_resetBlock (s : State) : ResetValues (resetBlock s) := by
  simp [ResetValues]

theorem step_hardReset {s : State} {rest : List HostEvent} (h : s.hostQueue = .hardReset :: rest) :
    step s = .next (resetBlock (popHost rest s)) := by
  rw [step, fetch_hardReset h]

/-- Settles O11: all three resets end in `resetBlock`; RESET alone answers. -/
theorem resetLeavesResetValues : Obligations.ResetLeavesResetValues := by
  refine ⟨resetValues_resetBlock State.reset, rfl, fun s => ⟨_, rfl, resetValues_resetBlock s⟩, fun s rest h => ?_⟩
  exact ⟨_, step_hardReset h, resetValues_resetBlock _, rfl⟩

/-- Settles O34: the three code tables are finite and evaluated. -/
theorem statusCodes : Obligations.StatusCodes := ⟨by decide, by decide, by decide⟩

end Sys2Proof.Machine
end

section
/-! The invariants of the registers and memories along every step (spec/10_state.md R28). -/

namespace Sys2Proof.Machine

/-! ### What `StateInv` says of a state outside phase ERROR -/

theorem StateInv.err_eq_noErr {s : State} (h : StateInv s) (hp : s.phase ≠ .error) : s.err = .noErr :=
  Classical.not_not.1 fun he => hp (h.err_iff.1 he)

theorem StateInv.fphase_eq_idle {s : State} (h : StateInv s) (hp : s.phase ≠ .error) : s.fphase = .idle :=
  h.fphase_of_no_err (h.err_eq_noErr hp)

/-- In IDLE the three counters are zero (R28 item 3). -/
theorem StateInv.counters_of_idle {s : State} (h : StateInv s) (hp : s.phase = .idle) :
    s.expLen = 0 ∧ s.rawLen = 0 ∧ s.rowCnt = 0 :=
  h.idle_zero (by simp [reachedPhase, hp])

/-! ### The effects that keep `StateInv` -/

theorem stateInv_present {s : State} (h : StateInv s) (rest : List HostEvent) : StateInv (present rest s) :=
  stateInv_of h rfl rfl rfl rfl rfl rfl rfl rfl rfl rfl rfl rfl rfl

/-- In IDLE the configuration is free: no invariant reads it there. -/
theorem stateInv_configured {s : State} (h : StateInv s) (hp : s.phase = .idle) (b : Bool) (w v : Word32) :
    StateInv { s with be := b, width := w, height := v } := by
  obtain ⟨hx, hr, hc⟩ := h.counters_of_idle hp
  exact {
    h with
    sized := fun hn => absurd (by simp [reachedPhase, hp]) hn
    raster_decoded := fun hv => by simp [rasterValid, reachedPhase, hp] at hv
    rowCnt_le := by simp [hc]
    rowCnt_done := by simp [hp] }

/-- START with a legal size: EXPLEN is exact and nothing has been pushed (spec/40_run_control.md R64). -/
theorem stateInv_started {s : State} (h : StateInv s) (hp : s.phase = .idle) (hw : s.width ≠ 0) (hh : s.height ≠ 0)
    (hc : pixelCount s ≤ maxPix s) :
    StateInv (setPhase .loading (setRawLen 0 (setExpLen (BitVec.ofNat 64 (2 * pixelCount s)) s))) := by
  have hpe : s.phase ≠ .error := by simp [hp]
  obtain ⟨-, -, hrow⟩ := h.counters_of_idle hp
  exact {
    h with
    err_iff := by simp [h.err_eq_noErr hpe]
    sized := fun _ => ⟨Nat.pos_of_ne_zero (by simpa [← BitVec.toNat_inj] using hw),
      Nat.pos_of_ne_zero (by simpa [← BitVec.toNat_inj] using hh), hc, expLen_fits hc⟩
    idle_zero := by simp [reachedPhase]
    raw_held := by simp
    raster_decoded := by simp [rasterValid, reachedPhase]
    rowCnt_done := by simp
    rowCnt_zero := fun _ => hrow }

/-- A push moves RAWLEN alone. -/
theorem countPushed_eq_setRawLen (s : State) : countPushed s = setRawLen (countPushed s).rawLen s := by
  unfold countPushed
  split <;> rfl

/-- Counting a push keeps `StateInv` in LOADING, when RAW holds the cells up to the new count (R70). -/
theorem stateInv_counted {s : State} {m : Memory Byte} (h : StateInv s) (hp : s.phase = .loading)
    (hheld : ∀ a, a < s.rawLen.toNat + 1 → a < s.expLen.toNat → ∃ b, Memory.read m a = some b)
    (hwf : Memory.wf m) (hin : Memory.within (rawCap s) m) : StateInv (countPushed (setRaw m s)) := by
  have hcount := countPushed_rawLen_toNat (setRaw m s)
  rw [countPushed_eq_setRawLen]
  generalize (countPushed (setRaw m s)).rawLen = n at hcount ⊢
  rw [setRaw_rawLen] at hcount
  exact {
    h with
    idle_zero := by simp [reachedPhase, hp]
    raw_held := fun a ha => by
      rw [setRawLen_rawLen, setRawLen_expLen, setRaw_expLen] at ha
      exact hheld a (by omega) (by omega)
    raster_decoded := by simp [rasterValid, reachedPhase, hp]
    raw_wf := hwf
    raw_within := hin }

/-- A stored byte fills the next cell of RAW. -/
theorem stateInv_pushStored {s : State} (h : StateInv s) (hp : s.phase = .loading) (b : Byte)
    (hcap : s.rawLen.toNat < rawCap s) :
    StateInv (countPushed (setRaw (Memory.write s.raw s.rawLen.toNat b) s)) := by
  refine stateInv_counted h hp (fun a ha hx => ?_) (Memory.wf_write _ b h.raw_wf)
    (Memory.within_write b hcap h.raw_within)
  rw [Memory.read_write]
  split
  · exact ⟨b, rfl⟩
  · exact h.raw_held a (by omega)

/-- A dropped byte is counted; RAW is full already. -/
theorem stateInv_pushDropped {s : State} (h : StateInv s) (hp : s.phase = .loading)
    (hx : s.expLen.toNat ≤ s.rawLen.toNat) : StateInv (countPushed s) :=
  stateInv_counted (m := s.raw) h hp (fun a _ ha => h.raw_held a (by omega)) h.raw_wf h.raw_within

/-- DECODE leaves every pixel of the image in RASTER, each of its own two bytes (spec/41_decoder.md R71). -/
theorem stateInv_decoded {s : State} {ps : List Pixel} {m : Memory Pixel} (h : StateInv s) (hp : s.phase = .loading)
    (hlen : s.rawLen = s.expLen) (hps : decodePixels s 0 (pixelCount s) = .ok ps)
    (hm : Memory.writeRange .raster (rasterCap s) s.raster 0 ps = .ok m) :
    StateInv (setPhase .decoded (setRaster m s)) := by
  have hpe : s.phase ≠ .error := by simp [hp]
  have hsized := sized_of_loading h hp
  obtain ⟨hl, hpix⟩ := decodePixels_eq_ok.1 hps
  exact {
    h with
    err_iff := by simp [h.err_eq_noErr hpe]
    sized := fun _ => hsized
    idle_zero := by simp [reachedPhase]
    raster_decoded := fun _ => ⟨hlen, fun i hi => by
      obtain ⟨b0, b1, h0, h1, hi'⟩ := hpix i hi
      rw [Nat.zero_add] at h0 h1
      refine ⟨b0, b1, (readRaw_eq_ok.1 h0).2, (readRaw_eq_ok.1 h1).2, ?_⟩
      change i < pixelCount s at hi
      rw [setPhase_raster, setRaster_raster, Memory.read_writeRange hm, if_pos (by omega)]
      exact hi'⟩
    rowCnt_done := by simp
    rowCnt_zero := fun _ => h.rowCnt_zero (.inl hp)
    raster_wf := Memory.wf_writeRange hm h.raster_wf
    raster_within := Memory.within_writeRange hm h.raster_within }

/-! ### Commands and steps -/

theorem stateInv_runIllegal {s t : State} (h : StateInv s) (hr : runIllegal s = .next t) : StateInv t := by
  rcases runIllegal_next hr with ⟨-, rfl⟩ | ⟨hp, rfl⟩
  · exact stateInv_respond h _ _
  · exact stateInv_takeFault h hp _ (by decide)

/-- Every way a command gives a next state keeps `StateInv`. -/
theorem stateInv_effect {i : Instr} {s t : State} (h : StateInv s) (he : Effect s i t) : StateInv t := by
  cases he with
  | refused => exact stateInv_respond h _ _
  | outOfPhase _ hp => exact stateInv_takeFault h hp _ (by decide)
  | rd => exact stateInv_respond h _ _
  | rdpx => exact stateInv_respond h _ _
  | noData => exact stateInv_respond h _ _
  | reset => exact stateInv_respond (stateInv_resetBlock s) _ _
  | setw v hp => exact stateInv_respond (stateInv_configured h hp s.be v s.height) _ _
  | seth v hp => exact stateInv_respond (stateInv_configured h hp s.be s.width v) _ _
  | setbe b hp => exact stateInv_respond (stateInv_configured h hp b s.width s.height) _ _
  | badSize hp => exact stateInv_takeFault h (by simp [hp]) _ (by decide)
  | start hp hw hh hc => exact stateInv_respond (stateInv_started h hp hw hh hc) _ _
  | pushStored b hp _ hcap => exact stateInv_respond (stateInv_pushStored h hp b hcap) _ _
  | pushDropped b hp hx => exact stateInv_respond (stateInv_pushDropped h hp hx) _ _
  | badLength hp => exact stateInv_takeFault h (by simp [hp]) _ (by decide)
  | decode ps m hp hlen hps hm => exact stateInv_respond (stateInv_decoded h hp hlen hps hm) _ _
  | emit rows buf r _ hp hl _ hb hend => exact stateInv_emitEnd h hp hl hb hend

/-- Settles O53: a step waits, resets, runs a command or turns an illegal word away, and each keeps `StateInv`. -/
theorem stepKeepsInvariants : Obligations.StepKeepsInvariants := by
  intro s t h hs
  rcases step_cases s with ⟨-, he⟩ | ⟨rest, -, he⟩ | ⟨w, rest, i, -, -, he⟩ | ⟨w, rest, e, -, -, he⟩ <;> rw [he] at hs
  · cases hs; exact h
  · cases hs; exact stateInv_resetBlock _
  · exact stateInv_effect (stateInv_present h rest) (exec_effect hs)
  · exact stateInv_runIllegal (stateInv_present h rest) hs

/-- Settles O52: the reset state is the reset of itself, and a reset meets both invariants. -/
theorem resetMeetsInvariants : Obligations.ResetMeetsInvariants :=
  ⟨stateInv_resetBlock State.reset, sinkInv_resetBlock State.reset⟩

end Sys2Proof.Machine
end

section
/-! What no command changes: the host's list and MAXPIX, and outside IDLE the configuration
(spec/10_state.md R14, R26, R28). -/

namespace Sys2Proof.Machine

/-! ### The host's list and MAXPIX -/

theorem EmitEnd.keeps_host {s u t : State} {rows : List (List Byte)} (h : EmitEnd s u rows t) :
    t.hostQueue = u.hostQueue ∧ t.lastPixel = u.lastPixel := by
  cases h <;> exact ⟨rfl, rfl⟩

theorem Effect.keeps_host {i : Instr} {s t : State} (h : Effect s i t) :
    t.hostQueue = s.hostQueue ∧ t.lastPixel = s.lastPixel := by
  cases h with
  | emit rows buf r _ _ _ _ _ hend => exact hend.keeps_host
  | pushStored => simp
  | pushDropped => simp
  | _ => exact ⟨rfl, rfl⟩

/-- Settles O47: no way a command gives a next state touches the two fields. -/
theorem commandsLeaveTheHostAlone : Obligations.CommandsLeaveTheHostAlone :=
  fun _ _ _ h => (exec_effect h).keeps_host

/-! ### The configuration -/

/-- CTRL, WIDTH and HEIGHT are the same in both states. -/
def SameConfig (s t : State) : Prop := t.be = s.be ∧ t.width = s.width ∧ t.height = s.height

theorem EmitEnd.sameConfig {s u t : State} {rows : List (List Byte)} (h : EmitEnd s u rows t) (ht : t.phase ≠ .idle) :
    SameConfig u t := by
  cases h with
  | endReset => exact absurd rfl ht
  | rowReset => exact absurd rfl ht
  | _ => exact ⟨rfl, rfl, rfl⟩

/-- Outside IDLE a command keeps the configuration, unless it resets the block. -/
theorem Effect.sameConfig {i : Instr} {s t : State} (h : Effect s i t) (hs : s.phase ≠ .idle) (ht : t.phase ≠ .idle) :
    SameConfig s t := by
  cases h with
  | reset => exact absurd rfl ht
  | setw _ hp => exact absurd hp hs
  | seth _ hp => exact absurd hp hs
  | setbe _ hp => exact absurd hp hs
  | emit rows buf r _ _ _ _ _ hend => exact hend.sameConfig ht
  | pushStored => simp [SameConfig]
  | pushDropped => simp [SameConfig]
  | _ => exact ⟨rfl, rfl, rfl⟩

theorem runIllegal_sameConfig {s t : State} (h : runIllegal s = .next t) : SameConfig s t := by
  rcases runIllegal_next h with ⟨-, rfl⟩ | ⟨-, rfl⟩ <;> exact ⟨rfl, rfl, rfl⟩

/-- Settles O43: a step that ends outside IDLE is no reset, and nothing else writes the configuration outside IDLE. -/
theorem configurationIsFrozen : Obligations.ConfigurationIsFrozen := by
  intro s t h hs ht
  rcases step_cases s with ⟨-, he⟩ | ⟨rest, -, he⟩ | ⟨w, rest, i, -, -, he⟩ | ⟨w, rest, e, -, -, he⟩ <;> rw [he] at h
  · cases h; exact ⟨rfl, rfl, rfl⟩
  · cases h; exact absurd rfl ht
  · exact (exec_effect h).sameConfig hs ht
  · exact runIllegal_sameConfig (s := present rest s) h

end Sys2Proof.Machine
end

section
/-! The canonical form of a memory is unique (spec/10_state.md R24, R27). -/

namespace Sys2Proof.Machine

/-- In a canonical memory a cell is listed exactly when it is read. -/
theorem Memory.read_eq_some_iff_mem {α : Type} {m : Memory α} (h : Memory.wf m) {a : Nat} {v : α} :
    Memory.read m a = some v ↔ (a, v) ∈ m := by
  induction m with
  | nil => simp
  | cons c m ih =>
    obtain ⟨b, w⟩ := c
    obtain ⟨hlt, hm⟩ := List.pairwise_cons.1 h
    rw [Memory.read, List.mem_cons, Prod.mk.injEq]
    split
    · next hab =>
      have : (a, v) ∉ m := fun hmem => absurd (hlt a (List.mem_map_of_mem hmem)) (by omega)
      simp [hab ▸ this, hab, eq_comm]
    · next hab => simp [hab, ih hm]

/-- The cells of a canonical memory stand in strictly rising order. -/
theorem Memory.pairwise_of_wf {α : Type} {m : Memory α} (h : Memory.wf m) : m.Pairwise (fun c d => c.1 < d.1) :=
  List.pairwise_map.1 h

/-- Settles O49: the two lists have the same members, and both are sorted by index. -/
theorem canonicalMemoriesAreEqual : Obligations.CanonicalMemoriesAreEqual := by
  intro α m n hm hn hread
  have nodup : ∀ {l : Memory α}, Memory.wf l → l.Nodup := fun h =>
    (Memory.pairwise_of_wf h).imp fun hlt heq => absurd (heq ▸ hlt) (Nat.lt_irrefl _)
  have perm : m.Perm n := (List.perm_ext_iff_of_nodup (nodup hm) (nodup hn)).2 fun ⟨a, v⟩ => by
    rw [← Memory.read_eq_some_iff_mem hm, ← Memory.read_eq_some_iff_mem hn, hread]
  exact perm.eq_of_pairwise (fun _ _ _ _ h h' => absurd h' (Nat.lt_asymm h)) (Memory.pairwise_of_wf hm)
    (Memory.pairwise_of_wf hn)

end Sys2Proof.Machine
end

section
/-! Non-interference of RAW and ROWBUF (spec/10_state.md R25): overwriting one of them before a command changes nothing
after it but that memory. -/

namespace Sys2Proof.Machine

/-- The two memories whose contents R25 lets a model drop. -/
inductive Buffer where
  | raw
  | rowBuf

/-- The state with other contents in one of the two. -/
def overwrite : Buffer → Memory Byte → State → State
  | .raw, m, s => setRaw m s
  | .rowBuf, m, s => setRowBuf m s

section OverwriteFields

variable (x : Buffer) (m : Memory Byte) (s : State)

@[simp] theorem overwrite_phase : (overwrite x m s).phase = s.phase := by cases x <;> rfl
@[simp] theorem overwrite_width : (overwrite x m s).width = s.width := by cases x <;> rfl
@[simp] theorem overwrite_height : (overwrite x m s).height = s.height := by cases x <;> rfl
@[simp] theorem overwrite_rowCnt : (overwrite x m s).rowCnt = s.rowCnt := by cases x <;> rfl
@[simp] theorem overwrite_sinkReplies : (overwrite x m s).sinkReplies = s.sinkReplies := by cases x <;> rfl
@[simp] theorem maxPix_overwrite : maxPix (overwrite x m s) = maxPix s := by cases x <;> rfl
@[simp] theorem rowBufCap_overwrite : rowBufCap (overwrite x m s) = rowBufCap s := by cases x <;> rfl
@[simp] theorem pixelCount_overwrite : pixelCount (overwrite x m s) = pixelCount s := by cases x <;> rfl
@[simp] theorem rasterValid_overwrite : rasterValid (overwrite x m s) = rasterValid s := by cases x <;> rfl
@[simp] theorem readRegister_overwrite (n : Byte) : readRegister n (overwrite x m s) = readRegister n s := by
  cases x <;> rfl
@[simp] theorem readRaster_overwrite (i : Nat) : readRaster i (overwrite x m s) = readRaster i s := by cases x <;> rfl
@[simp] theorem readRasterRange_overwrite (i n : Nat) :
    readRasterRange i n (overwrite x m s) = readRasterRange i n s := by cases x <;> rfl

/-! Every update that leaves the memory alone commutes with overwriting it. -/

theorem setPhase_overwrite (p : Phase) : setPhase p (overwrite x m s) = overwrite x m (setPhase p s) := by
  cases x <;> rfl
theorem setRawLen_overwrite (v : Word64) : setRawLen v (overwrite x m s) = overwrite x m (setRawLen v s) := by
  cases x <;> rfl
theorem setExpLen_overwrite (v : Word64) : setExpLen v (overwrite x m s) = overwrite x m (setExpLen v s) := by
  cases x <;> rfl
theorem setRowCnt_overwrite (v : Word32) : setRowCnt v (overwrite x m s) = overwrite x m (setRowCnt v s) := by
  cases x <;> rfl
theorem respond_overwrite (c : RespCode) (d : Word32) :
    respond c d (overwrite x m s) = overwrite x m (respond c d s) := by cases x <;> rfl
theorem takeFault_overwrite (k : Err) : takeFault k (overwrite x m s) = overwrite x m (takeFault k s) := by
  cases x <;> rfl
theorem answerStored_overwrite : answerStored (overwrite x m s) = overwrite x m (answerStored s) := by cases x <;> rfl
theorem recordTxn_overwrite (q : SinkRequest) (a : Option SinkAnswer) (r : List SinkReply) :
    recordTxn q a r (overwrite x m s) = overwrite x m (recordTxn q a r s) := by cases x <;> rfl

/-- A reset leaves no cell in the memory, whatever stood there. -/
theorem resetBlock_overwrite : resetBlock (overwrite x m s) = overwrite x [] (resetBlock s) := by cases x <;> rfl

end OverwriteFields

/-- Two outcomes that differ at most in one memory. -/
inductive AgreeBut (x : Buffer) : Result → Result → Prop
  | next (t : State) (m : Memory Byte) : AgreeBut x (.next t) (.next (overwrite x m t))
  | fault (f : Fault) : AgreeBut x (.fault f) (.fault f)

theorem AgreeBut.of_next {x : Buffer} {r' : Result} {t : State} (h : AgreeBut x (.next t) r') :
    ∃ m, r' = .next (overwrite x m t) := by
  cases h with
  | next _ m => exact ⟨m, rfl⟩

theorem AgreeBut.of_fault {x : Buffer} {r' : Result} {f : Fault} (h : AgreeBut x (.fault f) r') : r' = .fault f := by
  cases h; rfl

/-! ### The shared operations -/

theorem inPhase_overwrite {x : Buffer} {m : Memory Byte} {p : Phase} {body : State → Result} {s : State}
    (h : s.phase = p → AgreeBut x (body s) (body (overwrite x m s))) :
    AgreeBut x (inPhase p body s) (inPhase p body (overwrite x m s)) := by
  unfold inPhase
  rw [overwrite_phase, answerStored_overwrite, takeFault_overwrite]
  split_ifs with _ hp
  · exact .next _ m
  · exact h hp
  · exact .next _ m

/-- A command that only updates the state, by an update that commutes with the overwriting. -/
theorem inPhase_update_overwrite {x : Buffer} {m : Memory Byte} {p : Phase} (f : State → State) {s : State}
    (h : f (overwrite x m s) = overwrite x m (f s)) :
    AgreeBut x (inPhase p (fun u => .next (f u)) s) (inPhase p (fun u => .next (f u)) (overwrite x m s)) :=
  inPhase_overwrite fun _ => h ▸ .next _ m

theorem runIllegal_overwrite (x : Buffer) (m : Memory Byte) (s : State) :
    AgreeBut x (runIllegal s) (runIllegal (overwrite x m s)) := by
  unfold runIllegal
  rw [overwrite_phase, answerStored_overwrite, takeFault_overwrite]
  split
  · exact .next _ m
  · exact .next _ m

theorem sinkTransact_overwrite {x : Buffer} {q : SinkRequest} {f g : State → Result}
    (hf : ∀ u m, AgreeBut x (f u) (f (overwrite x m u))) (hg : ∀ u m, AgreeBut x (g u) (g (overwrite x m u)))
    (s : State) (m : Memory Byte) : AgreeBut x (sinkTransact q f g s) (sinkTransact q f g (overwrite x m s)) := by
  unfold sinkTransact
  simp only [overwrite_sinkReplies, recordTxn_overwrite, resetBlock_overwrite]
  split
  · exact .fault _
  · exact hf _ m
  · exact hg _ m
  · exact .next _ []
  · exact .next _ []

/-! ### EMIT: every row is written to ROWBUF before it is read there (spec/42_row_emitter.md R82) -/

/-- Whether a range write succeeds does not depend on what the memory holds. -/
theorem Memory.writeRange_contents {α : Type} (name : MemName) (cap : Nat) (vs : List α) : ∀ (a : Nat) (m m' : Memory α),
    (∃ n n', Memory.writeRange name cap m a vs = .ok n ∧ Memory.writeRange name cap m' a vs = .ok n') ∨
    ∃ f, Memory.writeRange name cap m a vs = .error f ∧ Memory.writeRange name cap m' a vs = .error f := by
  induction vs with
  | nil => exact fun a m m' => .inl ⟨m, m', rfl, rfl⟩
  | cons v vs ih =>
    intro a m m'
    unfold Memory.writeRange Memory.writeCell
    by_cases ha : a < cap
    · simpa only [if_pos ha] using ih (a + 1) _ _
    · simp only [if_neg ha]
      exact .inr ⟨_, rfl, rfl⟩

theorem writeRowBuf_of_error {bs : List Byte} {s : State} {f : Fault}
    (h : Memory.writeRange .rowBuf (rowBufCap s) s.rowBuf 0 bs = .error f) : writeRowBuf bs s = .error f := by
  simp only [writeRowBuf, h]

theorem writeRowBuf_overwrite (x : Buffer) (m : Memory Byte) (bs : List Byte) (s : State) :
    (∃ t m', writeRowBuf bs s = .ok t ∧ writeRowBuf bs (overwrite x m s) = .ok (overwrite x m' t)) ∨
    ∃ f, writeRowBuf bs s = .error f ∧ writeRowBuf bs (overwrite x m s) = .error f := by
  rcases Memory.writeRange_contents .rowBuf (rowBufCap s) bs 0 s.rowBuf m with ⟨n, n', hn, hn'⟩ | ⟨f, hf, hf'⟩
  · cases x with
    | raw => exact .inl ⟨_, m, writeRowBuf_eq_ok.2 ⟨n, hn, rfl⟩, writeRowBuf_eq_ok.2 ⟨n, hn, rfl⟩⟩
    | rowBuf => exact .inl ⟨_, n', writeRowBuf_eq_ok.2 ⟨n, hn, rfl⟩, writeRowBuf_eq_ok.2 ⟨n', hn', rfl⟩⟩
  · cases x with
    | raw => exact .inr ⟨f, writeRowBuf_of_error hf, writeRowBuf_of_error (s := setRaw m s) hf⟩
    | rowBuf => exact .inr ⟨f, writeRowBuf_of_error hf, writeRowBuf_of_error (s := setRowBuf m s) hf'⟩

theorem readRowBuf_of_writeRowBuf {bs : List Byte} {s t : State} {n : Nat} (h : writeRowBuf bs s = .ok t)
    (hn : bs.length = n) : readRowBuf n t = .ok bs := by
  obtain ⟨m, hm, rfl⟩ := writeRowBuf_eq_ok.1 h
  exact Memory.readRange_writeRange hm hn

/-- The row built, and read back, is the same over either memory. -/
theorem buildRow_overwrite (x : Buffer) (m : Memory Byte) (y : Nat) (s : State) :
    (∃ t m' bytes, buildRow y s = .ok t ∧ buildRow y (overwrite x m s) = .ok (overwrite x m' t) ∧
      readRowBuf (4 * t.width.toNat) t = .ok bytes ∧ readRowBuf (4 * t.width.toNat) (overwrite x m' t) = .ok bytes) ∨
    ∃ f, buildRow y s = .error f ∧ buildRow y (overwrite x m s) = .error f := by
  simp only [buildRow, overwrite_width, readRasterRange_overwrite]
  rcases hps : readRasterRange (y * s.width.toNat) s.width.toNat s with f | ps
  · exact .inr ⟨f, rfl, rfl⟩
  · rcases writeRowBuf_overwrite x m (ps.flatMap Pixel.channels) s with ⟨t, m', h, h'⟩ | ⟨f, h, h'⟩
    · have hw : t.width = s.width := by obtain ⟨n, -, rfl⟩ := writeRowBuf_eq_ok.1 h; rfl
      have hlen : (ps.flatMap Pixel.channels).length = 4 * t.width.toNat := by
        rw [length_flatMap_channels, (readRasterRange_eq_ok.1 hps).1, hw]
      exact .inl ⟨t, m', _, h, h', readRowBuf_of_writeRowBuf h hlen, readRowBuf_of_writeRowBuf h' hlen⟩
    · exact .inr ⟨f, h, h'⟩

theorem emitEnd_overwrite (x : Buffer) (m : Memory Byte) (s : State) :
    AgreeBut x (emitEnd s) (emitEnd (overwrite x m s)) := by
  refine sinkTransact_overwrite (fun u m => ?_) (fun u m => ?_) s m
  · simp only [setPhase_overwrite, respond_overwrite]; exact .next _ m
  · simp only [takeFault_overwrite]; exact .next _ m

theorem emitRows_overwrite {x : Buffer} {n : Nat} : ∀ (y : Nat) (s : State) (m : Memory Byte),
    AgreeBut x (emitRows y n s) (emitRows y n (overwrite x m s)) := by
  induction n with
  | zero => exact fun _ s m => emitEnd_overwrite x m s
  | succ n ih =>
    intro y s m
    rcases buildRow_overwrite x m y s with ⟨t, m', bytes, h, h', hb, hb'⟩ | ⟨f, h, h'⟩
    · rw [emitRows_succ h hb, emitRows_succ h' (by rw [overwrite_width]; exact hb')]
      refine sinkTransact_overwrite (fun u m => ?_) (fun u m => ?_) t m'
      · simp only [overwrite_rowCnt, setRowCnt_overwrite]; exact ih _ _ m
      · simp only [takeFault_overwrite]; exact .next _ m
    · simp only [emitRows, h, h']
      exact .fault f

theorem emitBody_overwrite (x : Buffer) (m : Memory Byte) (s : State) :
    AgreeBut x (emitBody s) (emitBody (overwrite x m s)) := by
  rw [emitBody, emitBody, overwrite_height, setRowCnt_overwrite]
  exact emitRows_overwrite _ _ m

/-! ### PUSH and DECODE read RAW, so only ROWBUF is hidden from them -/

theorem writeRaw_setRowBuf (a : Nat) (b : Byte) (m : Memory Byte) (s : State) :
    writeRaw a b (setRowBuf m s) = (writeRaw a b s).map (setRowBuf m) := by
  simp only [writeRaw, rawCap_setRowBuf, setRowBuf_raw]
  split <;> rfl

theorem storePushed_setRowBuf (b : Byte) (m : Memory Byte) (s : State) :
    storePushed b (setRowBuf m s) = (storePushed b s).map (setRowBuf m) := by
  unfold storePushed
  rw [apply_ite (Except.map (setRowBuf m)), ← writeRaw_setRowBuf]
  rfl

theorem countPushed_setRowBuf (m : Memory Byte) (s : State) :
    countPushed (setRowBuf m s) = setRowBuf m (countPushed s) := by
  unfold countPushed
  rw [apply_ite (setRowBuf m)]
  rfl

theorem pushBody_setRowBuf (b : Byte) (m : Memory Byte) (s : State) :
    AgreeBut .rowBuf (pushBody b s) (pushBody b (setRowBuf m s)) := by
  rw [pushBody, pushBody, storePushed_setRowBuf]
  cases storePushed b s with
  | error f => exact .fault f
  | ok t =>
    simp only [Except.map, countPushed_setRowBuf]
    exact .next _ m

theorem decodePixels_setRowBuf (m : Memory Byte) (s : State) (n : Nat) : ∀ i,
    decodePixels (setRowBuf m s) i n = decodePixels s i n := by
  induction n with
  | zero => exact fun _ => rfl
  | succ n ih => intro i; simp only [decodePixels, ih]; rfl

theorem writeRaster_setRowBuf (ps : List Pixel) (m : Memory Byte) (s : State) :
    writeRaster ps (setRowBuf m s) = (writeRaster ps s).map (setRowBuf m) := by
  simp only [writeRaster, rasterCap_setRowBuf, setRowBuf_raster]
  split <;> rfl

theorem decodeBody_setRowBuf (m : Memory Byte) (s : State) :
    AgreeBut .rowBuf (decodeBody s) (decodeBody (setRowBuf m s)) := by
  simp only [decodeBody, setRowBuf_rawLen, setRowBuf_expLen, pixelCount_setRowBuf, decodePixels_setRowBuf,
    writeRaster_setRowBuf]
  split
  · exact .next _ m
  · cases decodePixels s 0 (pixelCount s) with
    | error f => exact .fault f
    | ok ps =>
      dsimp only
      cases writeRaster ps s with
      | error f => exact .fault f
      | ok t => exact .next _ m

/-! ### The commands -/

theorem startBody_overwrite (x : Buffer) (m : Memory Byte) (s : State) :
    AgreeBut x (startBody s) (startBody (overwrite x m s)) := by
  simp only [startBody, overwrite_width, overwrite_height, maxPix_overwrite, pixelCount_overwrite, takeFault_overwrite,
    setExpLen_overwrite, setRawLen_overwrite, setPhase_overwrite, respond_overwrite]
  split_ifs <;> exact .next _ m

theorem execRd_overwrite (x : Buffer) (m : Memory Byte) (n : Byte) (s : State) :
    AgreeBut x (execRd n s) (execRd n (overwrite x m s)) := by
  simp only [execRd, readRegister_overwrite, respond_overwrite]
  split
  · exact .next _ m
  · exact runIllegal_overwrite x m s

theorem execRdpx_overwrite (x : Buffer) (m : Memory Byte) (i : Word32) (s : State) :
    AgreeBut x (execRdpx i s) (execRdpx i (overwrite x m s)) := by
  simp only [execRdpx, rasterValid_overwrite, pixelCount_overwrite, readRaster_overwrite, respond_overwrite]
  split
  · cases readRaster i.toNat s with
    | error f => exact .fault f
    | ok p => exact .next _ m
  · exact .next _ m

/-- No command lets the contents of ROWBUF out, and outside LOADING none lets those of RAW out. -/
theorem exec_overwrite {x : Buffer} (i : Instr) {s : State} (m : Memory Byte) (h : x = .raw → s.phase ≠ .loading) :
    AgreeBut x (exec i s) (exec i (overwrite x m s)) := by
  cases i with
  | setw v => exact inPhase_update_overwrite (fun u => respond .ok 0 (setWidth v u)) (by cases x <;> rfl)
  | seth v => exact inPhase_update_overwrite (fun u => respond .ok 0 (setHeight v u)) (by cases x <;> rfl)
  | setbe b => exact inPhase_update_overwrite (fun u => respond .ok 0 (setBe b u)) (by cases x <;> rfl)
  | start => exact inPhase_overwrite fun _ => startBody_overwrite x m s
  | push b =>
    refine inPhase_overwrite fun hp => ?_
    cases x with
    | raw => exact absurd hp (h rfl)
    | rowBuf => exact pushBody_setRowBuf b m s
  | decode =>
    refine inPhase_overwrite fun hp => ?_
    cases x with
    | raw => exact absurd hp (h rfl)
    | rowBuf => exact decodeBody_setRowBuf m s
  | emit => exact inPhase_overwrite fun _ => emitBody_overwrite x m s
  | rd n => exact execRd_overwrite x m n s
  | rdpx i => exact execRdpx_overwrite x m i s
  | reset =>
    rw [exec, exec, execReset, execReset, resetBlock_overwrite, respond_overwrite]
    exact .next _ []

/-- Settles O50: ROWBUF is hidden in every phase. -/
theorem rowBufIsUnobservable : Obligations.RowBufIsUnobservable := by
  intro i s buf
  have h := exec_overwrite (x := .rowBuf) i (s := s) buf (by simp)
  exact ⟨fun t ht => (ht ▸ h).of_next, fun f hf => (hf ▸ h).of_fault⟩

/-- Settles O51: RAW is hidden outside LOADING. -/
theorem rawIsUnobservableOutsideLoading : Obligations.RawIsUnobservableOutsideLoading := by
  intro i s m hp
  have h := exec_overwrite (x := .raw) i m fun _ => hp
  exact ⟨fun t ht => (ht ▸ h).of_next, fun f hf => (hf ▸ h).of_fault⟩

end Sys2Proof.Machine
end

section
/-! A run of PUSHes (spec/41_decoder.md R70, spec/10_state.md R28 item 4). -/

namespace Sys2Proof.Machine

/-! ### One PUSH -/

theorem decode_encode_push (b : Byte) : decode (encode (.push b)) = .ok (.push b) := by
  simp [encode, decode, formImm8, extract_setWidth_byte]

/-- A legal word the host presents runs as its command. -/
theorem step_command {s : State} {w : PortWord} {i : Instr} {rest : List HostEvent}
    (hq : s.hostQueue = .command w :: rest) (hd : decode w = .ok i) : step s = exec i (present rest s) := by
  simp only [step, fetch_word hq, hd]

theorem countPushed_of_lt {s : State} (h : s.rawLen.toNat < 2 ^ 64 - 1) :
    countPushed s = setRawLen (s.rawLen + 1) s := if_pos h

/-- RAW with `b` stored at index `k`, if that is below `len`. -/
def storedBelow (len : Nat) (m : Memory Byte) (k : Nat) (b : Byte) : Memory Byte :=
  if k < len then Memory.write m k b else m

theorem read_storedBelow (len : Nat) (m : Memory Byte) (k : Nat) (b : Byte) (a : Nat) :
    Memory.read (storedBelow len m k b) a = if a = k ∧ k < len then some b else Memory.read m a := by
  unfold storedBelow
  split
  · next h => simp [Memory.read_write, h]
  · next h => simp [h]

theorem storePushed_eq {s : State} (b : Byte) (hcap : s.expLen.toNat ≤ rawCap s) :
    storePushed b s = .ok (setRaw (storedBelow s.expLen.toNat s.raw s.rawLen.toNat b) s) := by
  unfold storePushed storedBelow
  split
  · next h => exact writeRaw_eq_ok.2 ⟨by omega, rfl⟩
  · rfl

/-- PUSH in LOADING, while RAWLEN is short of its largest value. -/
theorem exec_push_loading {s : State} (b : Byte) (hp : s.phase = .loading) (hcap : s.expLen.toNat ≤ rawCap s)
    (hlen : s.rawLen.toNat < 2 ^ 64 - 1) :
    exec (.push b) s = .next (respond .ok 0
      (setRawLen (s.rawLen + 1) (setRaw (storedBelow s.expLen.toNat s.raw s.rawLen.toNat b) s))) := by
  have hbody : exec (.push b) s = pushBody b s := inPhase_accepted hp (by decide)
  simp only [hbody, pushBody, storePushed_eq b hcap]
  rw [countPushed_of_lt (by exact hlen), setRaw_rawLen]

/-! ### A run of them -/

/-- `t` is `s` after the host has pushed `bytes`, with `rest` left in its list: the bytes below EXPLEN stand in RAW from
index RAWLEN on, all of them are counted, and nothing else changed but the response. -/
structure Pushed (bytes : List Byte) (rest : List HostEvent) (s t : State) : Prop where
  count : t.rawLen.toNat = s.rawLen.toNat + bytes.length
  cells : ∀ a, Memory.read t.raw a =
    if s.rawLen.toNat ≤ a ∧ a < s.rawLen.toNat + bytes.length ∧ a < s.expLen.toNat then bytes[a - s.rawLen.toNat]?
    else Memory.read s.raw a
  frame : t = { s with raw := t.raw, rawLen := t.rawLen, hostQueue := rest, response := t.response }

theorem pushed_nil {rest : List HostEvent} {s : State} (hq : s.hostQueue = rest) : Pushed [] rest s s where
  count := rfl
  cells a := by rw [if_neg (by simp only [List.length_nil]; omega)]
  frame := by rw [← hq]

/-- The step of one PUSH. -/
theorem step_push {s : State} {b : Byte} {rest : List HostEvent} (hp : s.phase = .loading)
    (hcap : s.expLen.toNat ≤ rawCap s) (hlen : s.rawLen.toNat < 2 ^ 64 - 1)
    (hq : s.hostQueue = .command (encode (.push b)) :: rest) : ∃ t, step s = .next t ∧ Pushed [b] rest s t := by
  refine ⟨_, (step_command hq (decode_encode_push b)).trans (exec_push_loading (s := present rest s) b hp hcap hlen), ?_⟩
  refine ⟨?count, fun a => ?cells, rfl⟩
  case count =>
    change (s.rawLen + 1).toNat = s.rawLen.toNat + 1
    rw [BitVec.toNat_add]
    exact Nat.mod_eq_of_lt (by simp only [BitVec.ofNat_eq_ofNat, BitVec.toNat_ofNat]; omega)
  case cells =>
    refine (read_storedBelow _ _ _ _ _).trans ?_
    rw [List.length_singleton]
    by_cases ha : a = s.rawLen.toNat
    · subst ha; simp
    · rw [if_neg (fun h => ha h.1), if_neg (by omega), present_raw]

/-- One PUSH and then a run of them. -/
theorem Pushed.cons {b : Byte} {bytes : List Byte} {q rest : List HostEvent} {s u t : State} (h : Pushed [b] q s u)
    (h' : Pushed bytes rest u t) : Pushed (b :: bytes) rest s t where
  count := by rw [h'.count, h.count, List.length_singleton, List.length_cons]; omega
  cells a := by
    have hx : u.expLen = s.expLen := by rw [h.frame]
    rw [h'.cells, h.cells, h.count, hx, List.length_singleton, List.length_cons]
    rcases Nat.lt_trichotomy a s.rawLen.toNat with ha | rfl | ha
    · rw [if_neg (by omega), if_neg (by omega), if_neg (by omega)]
    · rw [if_neg (by omega)]
      simp
    · rw [if_neg (c := _ ∧ a < s.rawLen.toNat + 1 ∧ _) (by omega)]
      by_cases hin : a < s.rawLen.toNat + (bytes.length + 1) ∧ a < s.expLen.toNat
      · rw [if_pos (by omega), if_pos (by omega),
          show a - s.rawLen.toNat = a - (s.rawLen.toNat + 1) + 1 by omega, List.getElem?_cons_succ]
      · rw [if_neg (by omega), if_neg (by omega)]
  frame := by rw [h'.frame, h.frame]

/-- The run of PUSHes, from any RAWLEN that leaves room to count them all. -/
theorem runSteps_pushes (bytes : List Byte) (rest : List HostEvent) : ∀ s : State, s.phase = .loading →
    s.expLen.toNat ≤ rawCap s → s.rawLen.toNat + bytes.length < 2 ^ 64 →
    s.hostQueue = presented (pushCommands bytes) ++ rest →
    ∃ t, runSteps bytes.length s = .next t ∧ Pushed bytes rest s t := by
  induction bytes with
  | nil => exact fun s _ _ _ hq => ⟨s, rfl, pushed_nil hq⟩
  | cons b bytes ih =>
    intro s hp hcap hlen hq
    rw [List.length_cons] at hlen
    obtain ⟨u, hstep, hu⟩ := step_push hp hcap (by omega) hq
    have hcount := hu.count
    rw [List.length_singleton] at hcount
    obtain ⟨t, hrun, ht⟩ := ih u (by rw [hu.frame]; exact hp) (by rw [hu.frame]; exact hcap) (by omega)
      (by rw [hu.frame]; rfl)
    exact ⟨t, by rw [List.length_cons, runSteps, hstep]; exact hrun, hu.cons ht⟩

/-- Settles O58: the run of PUSHes from RAWLEN 0. -/
theorem pushesFillRawInOrder : Obligations.PushesFillRawInOrder := by
  intro bytes rest s hp hzero hcap hlen hq
  have h0 : s.rawLen.toNat = 0 := by rw [hzero]; rfl
  obtain ⟨t, hrun, ht⟩ := runSteps_pushes bytes rest s hp hcap (by omega) hq
  exact ⟨t, hrun, by rw [ht.count]; omega, fun a => by simpa [h0] using ht.cells a, ht.frame⟩

end Sys2Proof.Machine
end

section
/-! The word of two stored bytes and the safety of every memory access (spec/20_memory.md R33, R44). -/

namespace Sys2Proof.Machine

/-! ### The word of two bytes -/

theorem toNat_append_bytes (hi lo : Byte) : (hi ++ lo : Word16).toNat = hi.toNat * 256 + lo.toNat := by
  rw [BitVec.toNat_append, ← Nat.shiftLeft_add_eq_or_of_lt lo.isLt, Nat.shiftLeft_eq]

/-- Settles O20: the byte order picks which of the two bytes is the high one. -/
theorem wordOfTwoBytes : Obligations.WordOfTwoBytes :=
  fun b0 b1 => ⟨toNat_append_bytes b1 b0, toNat_append_bytes b0 b1, rfl⟩

/-! ### What stops a step -/

theorem runIllegal_completes (s : State) : ∃ t, runIllegal s = .next t := by
  by_cases hp : s.phase = .error
  · exact ⟨_, runIllegal_error hp⟩
  · exact ⟨_, runIllegal_not_error hp⟩

/-- A step completes, or it runs an EMIT whose sink is silent. -/
theorem step_completes {s : State} (h : StateInv s) :
    (∃ t, step s = .next t) ∨ (step s = .fault .sinkSilent ∧ s.phase = .decoded) := by
  rcases step_cases s with ⟨-, he⟩ | ⟨rest, -, he⟩ | ⟨w, rest, i, -, -, he⟩ | ⟨w, rest, e, -, -, he⟩ <;> rw [he]
  · exact .inl ⟨_, rfl⟩
  · exact .inl ⟨_, rfl⟩
  · exact (exec_completes (stateInv_present h rest)).imp_right fun ⟨hsilent, _, hp⟩ => ⟨hsilent, hp⟩
  · exact .inl (runIllegal_completes _)

/-- Settles O56: the outcome of a step is the one `step_completes` names. -/
theorem onlyASilentSinkStopsTheMachine : Obligations.OnlyASilentSinkStopsTheMachine := by
  intro s h
  rcases step_completes h with ⟨t, he⟩ | ⟨he, hp⟩ <;> rw [he]
  · exact ⟨nofun, nofun⟩
  · exact ⟨fun f hf => by cases hf; exact ⟨rfl, hp⟩, nofun⟩

end Sys2Proof.Machine
end

section
/-! The round trip between command words and commands, and the named rejections (spec/30_encoding.md R51 to R55). -/

namespace Sys2Proof

/-! ### The operand forms (R51) -/

theorem toNat_low8 (arg : Word32) : (arg.extractLsb' 0 8).toNat = arg.toNat % 256 := by
  rw [BitVec.extractLsb'_toNat, Nat.shiftRight_zero]

theorem toNat_byteArg (b : Byte) : (b.setWidth 32).toNat = b.toNat :=
  BitVec.toNat_setWidth_of_le (by decide)

/-- An ARG below 256 is its low byte, widened. -/
theorem byteArg_low8 {arg : Word32} (h : arg.toNat < 256) : (arg.extractLsb' 0 8).setWidth 32 = arg := by
  apply BitVec.eq_of_toNat_eq
  rw [toNat_byteArg, toNat_low8, Nat.mod_eq_of_lt h]

/-- An ARG below 2 is its low bit, widened. -/
theorem bitArg_low {arg : Word32} (h : arg.toNat < 2) : (BitVec.ofBool (arg.getLsbD 0)).setWidth 32 = arg := by
  obtain rfl | rfl : arg = 0 ∨ arg = 1 := by bv_omega
  · rfl
  · rfl

theorem formNone_eq_ok {arg : Word32} {i j : Instr} : formNone arg j = .ok i ↔ arg = 0 ∧ j = i := by
  unfold formNone
  split <;> simp_all

theorem formImm1_eq_ok {arg : Word32} {f : Bool → Instr} {i : Instr} :
    formImm1 arg f = .ok i ↔ ∃ b, (BitVec.ofBool b).setWidth 32 = arg ∧ f b = i := by
  unfold formImm1
  constructor
  · split
    · next h => exact fun hi => ⟨_, bitArg_low ((high31_eq_zero_iff arg).1 h), by simpa using hi⟩
    · nofun
  · rintro ⟨b, rfl, rfl⟩
    cases b <;> rfl

theorem formImm8_eq_ok {arg : Word32} {f : Byte → Instr} {i : Instr} :
    formImm8 arg f = .ok i ↔ ∃ b : Byte, b.setWidth 32 = arg ∧ f b = i := by
  unfold formImm8
  constructor
  · split
    · next h => exact fun hi => ⟨_, byteArg_low8 ((high24_eq_zero_iff arg).1 h), by simpa using hi⟩
    · nofun
  · rintro ⟨b, rfl, rfl⟩
    obtain ⟨hhigh, hlow⟩ := extract_setWidth_byte b
    rw [if_pos hhigh, hlow]

theorem formReg_eq_ok {arg : Word32} {f : Byte → Instr} {i : Instr} :
    formReg arg f = .ok i ↔ ∃ n : Byte, n.toNat ≤ 8 ∧ n.setWidth 32 = arg ∧ f n = i := by
  unfold formReg
  constructor
  · split
    · next h =>
      split
      · next hn => exact fun hi => ⟨_, hn, byteArg_low8 ((high24_eq_zero_iff arg).1 h), by simpa using hi⟩
      · nofun
    · nofun
  · rintro ⟨n, hn, rfl, rfl⟩
    obtain ⟨hhigh, hlow⟩ := extract_setWidth_byte n
    rw [if_pos hhigh, hlow, if_pos hn]

/-! ### The decoder, one equation per opcode (R53) -/

section Rows

variable (arg : Word32)

theorem decode_setw : decode (packWord 0x01 arg) = .ok (.setw arg) := by simp [decode]
theorem decode_seth : decode (packWord 0x02 arg) = .ok (.seth arg) := by simp [decode]
theorem decode_setbe : decode (packWord 0x03 arg) = formImm1 arg .setbe := by simp [decode]
theorem decode_start : decode (packWord 0x04 arg) = formNone arg .start := by simp [decode]
theorem decode_push : decode (packWord 0x05 arg) = formImm8 arg .push := by simp [decode]
theorem decode_decode : decode (packWord 0x06 arg) = formNone arg .decode := by simp [decode]
theorem decode_emit : decode (packWord 0x07 arg) = formNone arg .emit := by simp [decode]
theorem decode_rd : decode (packWord 0x08 arg) = formReg arg .rd := by simp [decode]
theorem decode_rdpx : decode (packWord 0x09 arg) = .ok (.rdpx arg) := by simp [decode]
theorem decode_reset : decode (packWord 0x0A arg) = formNone arg .reset := by simp [decode]

end Rows

theorem decode_encode (i : Instr) (h : i.wellFormed = true) : decode (encode i) = .ok i := by
  cases i with
  | setw v => exact decode_setw v
  | seth v => exact decode_seth v
  | setbe b => exact (decode_setbe _).trans (formImm1_eq_ok.2 ⟨b, rfl, rfl⟩)
  | start => exact decode_start 0
  | push b => exact (decode_push _).trans (formImm8_eq_ok.2 ⟨b, rfl, rfl⟩)
  | decode => exact decode_decode 0
  | emit => exact decode_emit 0
  | rd n => exact (decode_rd _).trans (formReg_eq_ok.2 ⟨n, by simpa [Instr.wellFormed] using h, rfl, rfl⟩)
  | rdpx j => exact decode_rdpx j
  | reset => exact decode_reset 0

/-- A word with these two fields is their concatenation. -/
theorem packWord_of_fields {w : PortWord} {op : Byte} {arg : Word32} (hop : (opField w).toNat = op.toNat)
    (harg : arg = argField w) : packWord op arg = w := by
  rw [harg, ← BitVec.eq_of_toNat_eq hop, packWord_fields]

theorem encode_of_decode {w : PortWord} {i : Instr} (h : decode w = .ok i) : i.wellFormed = true ∧ encode i = w := by
  unfold decode at h
  split at h
  case h_1 hop => cases h; exact ⟨rfl, packWord_of_fields hop rfl⟩
  case h_2 hop => cases h; exact ⟨rfl, packWord_of_fields hop rfl⟩
  case h_3 hop => obtain ⟨b, harg, rfl⟩ := formImm1_eq_ok.1 h; exact ⟨rfl, packWord_of_fields hop harg⟩
  case h_4 hop => obtain ⟨harg, rfl⟩ := formNone_eq_ok.1 h; exact ⟨rfl, packWord_of_fields hop harg.symm⟩
  case h_5 hop => obtain ⟨b, harg, rfl⟩ := formImm8_eq_ok.1 h; exact ⟨rfl, packWord_of_fields hop harg⟩
  case h_6 hop => obtain ⟨harg, rfl⟩ := formNone_eq_ok.1 h; exact ⟨rfl, packWord_of_fields hop harg.symm⟩
  case h_7 hop => obtain ⟨harg, rfl⟩ := formNone_eq_ok.1 h; exact ⟨rfl, packWord_of_fields hop harg.symm⟩
  case h_8 hop =>
    obtain ⟨n, hn, harg, rfl⟩ := formReg_eq_ok.1 h
    exact ⟨decide_eq_true hn, packWord_of_fields hop harg⟩
  case h_9 hop => cases h; exact ⟨rfl, packWord_of_fields hop rfl⟩
  case h_10 hop => obtain ⟨harg, rfl⟩ := formNone_eq_ok.1 h; exact ⟨rfl, packWord_of_fields hop harg.symm⟩
  case h_11 => cases h

/-- Settles O1: the ten commands, each through its own operand form. -/
theorem decodeOfEncode : Obligations.DecodeOfEncode := decode_encode

/-- Settles O2: the ten opcodes, each through its own operand form. -/
theorem encodeOfDecodedWord : Obligations.EncodeOfDecodedWord := fun _ _ => encode_of_decode

end Sys2Proof
end

section
/-! The opcode map as a rule about the two fields of a word, and the named rejections (spec/30_encoding.md R51 to R55). -/

namespace Sys2Proof

/-! ### The rows of the map (R52) -/

/-- The OP of a command's row. -/
def opcode : Instr → Byte
  | .setw _ => 0x01
  | .seth _ => 0x02
  | .setbe _ => 0x03
  | .start => 0x04
  | .push _ => 0x05
  | .decode => 0x06
  | .emit => 0x07
  | .rd _ => 0x08
  | .rdpx _ => 0x09
  | .reset => 0x0A

/-- How many low bits of ARG a command's row leaves to the operand. -/
def operandBits : Instr → Nat
  | .setw _ => 32
  | .seth _ => 32
  | .setbe _ => 1
  | .start => 0
  | .push _ => 8
  | .decode => 0
  | .emit => 0
  | .rd _ => 8
  | .rdpx _ => 32
  | .reset => 0

theorem rowMatch_eq_packWord (i : Instr) : rowMatch i = packWord (opcode i) 0 := by
  cases i <;> dsimp only [rowMatch, opcode] <;> decide

theorem rowMask_eq_packWord (i : Instr) :
    rowMask i = packWord (BitVec.allOnes 8) (BitVec.allOnes 32 <<< operandBits i) := by
  cases i <;> dsimp only [rowMask, operandBits] <;> decide

theorem packWord_inj {op op' : Byte} {arg arg' : Word32} :
    packWord op arg = packWord op' arg' ↔ op = op' ∧ arg = arg' := by
  refine ⟨fun h => ⟨?_, ?_⟩, fun ⟨hop, harg⟩ => by rw [hop, harg]⟩
  · simpa using congrArg opField h
  · simpa using congrArg argField h

/-- The bits from `k` on are zero exactly for the values below `2^k`. -/
theorem and_highMask_eq_zero_iff (arg : Word32) (k : Nat) :
    arg &&& BitVec.allOnes 32 <<< k = 0 ↔ arg.toNat < 2 ^ k := by
  have hle : arg.toNat / 2 ^ k * 2 ^ k < 2 ^ 32 := Nat.lt_of_le_of_lt (Nat.div_mul_le_self _ _) arg.isLt
  rw [← BitVec.shiftLeft_ushiftRight, ← BitVec.toNat_inj, BitVec.toNat_shiftLeft, BitVec.toNat_ushiftRight,
    Nat.shiftRight_eq_div_pow, Nat.shiftLeft_eq, Nat.mod_eq_of_lt hle]
  simp [Nat.div_eq_zero_iff]

/-- A row selects a word by its OP and by the must-be-zero bits of its ARG. -/
theorem row_selects_iff (w : PortWord) (i : Instr) :
    w &&& rowMask i = rowMatch i ↔ opField w = opcode i ∧ (argField w).toNat < 2 ^ operandBits i := by
  have hand : w &&& rowMask i = packWord (opField w) (argField w &&& BitVec.allOnes 32 <<< operandBits i) := by
    conv_lhs => rw [← packWord_fields w, rowMask_eq_packWord, Laws.OpcodeRow.packWord_and, BitVec.and_allOnes]
  rw [hand, rowMatch_eq_packWord, packWord_inj, and_highMask_eq_zero_iff]

/-- Every command's word is selected by its row. -/
theorem row_selects_encode : ∀ i : Instr, encode i &&& rowMask i = rowMatch i
  | .setw v => Laws.OpcodeRow.setw v
  | .seth v => Laws.OpcodeRow.seth v
  | .setbe b => Laws.OpcodeRow.setbe b
  | .start => Laws.OpcodeRow.start
  | .push b => Laws.OpcodeRow.push b
  | .decode => Laws.OpcodeRow.decode
  | .emit => Laws.OpcodeRow.emit
  | .rd n => Laws.OpcodeRow.rd n
  | .rdpx j => Laws.OpcodeRow.rdpx j
  | .reset => Laws.OpcodeRow.reset

theorem toNat_argField (w : PortWord) : (argField w).toNat = w.toNat % 2 ^ 32 := by
  rw [argField, BitVec.extractLsb'_toNat, Nat.shiftRight_zero]

theorem zero_eq_of_lt_one {arg : Word32} (h : arg.toNat < 1) : 0 = arg := by bv_omega

/-- A word that a row selects is the word of a well-formed command of that row. -/
theorem exists_command_of_row {w : PortWord} {j : Instr} (hop : opField w = opcode j)
    (harg : (argField w).toNat < 2 ^ operandBits j) (hrd : (∃ n, j = .rd n) → (argField w).toNat ≤ 8) :
    ∃ i : Instr, i.wellFormed = true ∧ encode i = w ∧ rowMatch i = rowMatch j ∧ rowMask i = rowMask j := by
  replace hop := congrArg BitVec.toNat hop
  cases j with
  | setw _ => exact ⟨.setw _, rfl, packWord_of_fields hop rfl, rfl, rfl⟩
  | seth _ => exact ⟨.seth _, rfl, packWord_of_fields hop rfl, rfl, rfl⟩
  | setbe _ => exact ⟨.setbe _, rfl, packWord_of_fields hop (bitArg_low harg), rfl, rfl⟩
  | start => exact ⟨.start, rfl, packWord_of_fields hop (zero_eq_of_lt_one harg), rfl, rfl⟩
  | push _ => exact ⟨.push _, rfl, packWord_of_fields hop (byteArg_low8 harg), rfl, rfl⟩
  | decode => exact ⟨.decode, rfl, packWord_of_fields hop (zero_eq_of_lt_one harg), rfl, rfl⟩
  | emit => exact ⟨.emit, rfl, packWord_of_fields hop (zero_eq_of_lt_one harg), rfl, rfl⟩
  | rd n =>
    refine ⟨.rd _, decide_eq_true ?_, packWord_of_fields hop (byteArg_low8 harg), rfl, rfl⟩
    rw [toNat_low8, Nat.mod_eq_of_lt (show _ < 256 from harg)]
    exact hrd ⟨n, rfl⟩
  | rdpx _ => exact ⟨.rdpx _, rfl, packWord_of_fields hop rfl, rfl, rfl⟩
  | reset => exact ⟨.reset, rfl, packWord_of_fields hop (zero_eq_of_lt_one harg), rfl, rfl⟩

theorem encode_rd_mod (n : Byte) : (encode (.rd n)).toNat % 256 = n.toNat := by
  rw [encode, packWord_toNat, toNat_byteArg]
  omega

/-- Settles O3: a legal word is the encoding of its command, and a selected word has an operand that its row's form
admits. -/
theorem decodeFollowsOpcodeMap : Obligations.DecodeFollowsOpcodeMap := by
  refine fun w => ⟨fun i hi => ?_, fun j hj hrd => ?_⟩
  · obtain ⟨hwf, rfl⟩ := encode_of_decode hi
    refine ⟨row_selects_encode i, ?_⟩
    rintro ⟨n, rfl⟩
    rw [encode_rd_mod]
    exact of_decide_eq_true hwf
  · obtain ⟨hop, harg⟩ := (row_selects_iff w j).1 hj
    have hle : (∃ n, j = .rd n) → (argField w).toNat ≤ 8 := by
      rintro ⟨n, rfl⟩
      have hlow := hrd ⟨n, rfl⟩
      change _ < 256 at harg
      rw [toNat_argField] at harg ⊢
      omega
    obtain ⟨i, hwf, rfl, hmatch, hmask⟩ := exists_command_of_row hop harg hle
    exact ⟨i, decode_encode i hwf, hmatch, hmask⟩

/-! ### The rejections (R54, R55) -/

theorem decode_reservedOpcode {w : PortWord} (h : (opField w).toNat = 0 ∨ 11 ≤ (opField w).toNat) :
    decode w = .error .reservedOpcode := by
  unfold decode
  split
  case h_11 => rfl
  all_goals omega

theorem formNone_argNotZero {arg : Word32} {i : Instr} (h : arg ≠ 0) : formNone arg i = .error .argNotZero :=
  if_neg h

theorem formImm1_argNotZero {arg : Word32} {f : Bool → Instr} (h : 2 ≤ arg.toNat) :
    formImm1 arg f = .error .argNotZero :=
  if_neg (by rw [high31_eq_zero_iff]; omega)

theorem formImm8_argNotZero {arg : Word32} {f : Byte → Instr} (h : 256 ≤ arg.toNat) :
    formImm8 arg f = .error .argNotZero :=
  if_neg (by rw [high24_eq_zero_iff]; omega)

theorem formReg_argNotZero {arg : Word32} {f : Byte → Instr} (h : 256 ≤ arg.toNat) :
    formReg arg f = .error .argNotZero :=
  if_neg (by rw [high24_eq_zero_iff]; omega)

theorem formReg_noSuchRegister {arg : Word32} {f : Byte → Instr} (h : 9 ≤ arg.toNat) (hlt : arg.toNat < 256) :
    formReg arg f = .error .noSuchRegister := by
  rw [formReg, if_pos ((high24_eq_zero_iff arg).2 hlt), if_neg (by rw [toNat_low8]; omega)]

/-- Settles O4: each fault by the operand form that finds it, the reserved opcodes by the decoder. -/
theorem illegalWordsAreNamed : Obligations.IllegalWordsAreNamed := by
  refine fun op arg => ⟨fun h => ?reserved, ?none, ?imm1, ?byte, ?register⟩
  case reserved => exact decode_reservedOpcode (by rwa [opField_packWord])
  case none =>
    rintro ⟨rfl | rfl | rfl | rfl, h⟩
    · exact (decode_start arg).trans (formNone_argNotZero h)
    · exact (decode_decode arg).trans (formNone_argNotZero h)
    · exact (decode_emit arg).trans (formNone_argNotZero h)
    · exact (decode_reset arg).trans (formNone_argNotZero h)
  case imm1 =>
    rintro ⟨rfl, h⟩
    exact (decode_setbe arg).trans (formImm1_argNotZero h)
  case byte =>
    rintro ⟨rfl | rfl, h⟩
    · exact (decode_push arg).trans (formImm8_argNotZero h)
    · exact (decode_rd arg).trans (formReg_argNotZero h)
  case register =>
    rintro ⟨rfl, h, hlt⟩
    exact (decode_rd arg).trans (formReg_noSuchRegister h hlt)

/-- Settles O5: the decoder evaluates on each of these words. -/
theorem specWordsDecode : Obligations.SpecWordsDecode := by
  unfold Obligations.SpecWordsDecode
  decide

end Sys2Proof
end

section
/-! The program text and its pseudo-commands (spec/30_encoding.md R57, R58). -/

namespace Sys2Proof.Machine

/-! ### Only well-formed commands can be spelt (R57) -/

/-- Every command of the list is well-formed. -/
def AllWellFormed (is : List Instr) : Prop := ∀ i ∈ is, i.wellFormed = true

theorem allWellFormed_nil : AllWellFormed [] := nofun

theorem allWellFormed_singleton {i : Instr} (h : i.wellFormed = true) : AllWellFormed [i] := by
  simpa [AllWellFormed] using h

theorem AllWellFormed.append {is js : List Instr} (hi : AllWellFormed is) (hj : AllWellFormed js) :
    AllWellFormed (is ++ js) := List.forall_mem_append.2 ⟨hi, hj⟩

theorem allWellFormed_pushCommands (bytes : List Byte) : AllWellFormed (pushCommands bytes) :=
  List.forall_mem_map.2 fun _ _ => rfl

/-- A register is spelt by one of the nine names, or by a number that is checked. -/
theorem parseRegister_le {cs : List Char} {n : Byte} (h : parseRegister cs = some n) : n.toNat ≤ 8 := by
  unfold parseRegister at h
  split at h
  · next m hm =>
    cases h
    obtain ⟨before, after, hnames, -⟩ := List.lookup_eq_some_iff.1 hm
    have hle : ∀ p ∈ registerNames, p.2.toNat ≤ 8 := by decide
    exact hle (cs, n) (by simp [hnames])
  · split at h
    · split_ifs at h with hle
      cases h
      exact hle
    · cases h

theorem allWellFormed_map {α : Type} {o : Option α} {f : α → List Instr} {is : List Instr}
    (h : o.map f = some is) (hf : ∀ a, o = some a → AllWellFormed (f a)) : AllWellFormed is := by
  obtain ⟨a, ha, rfl⟩ := Option.map_eq_some_iff.1 h
  exact hf a ha

/-- Of the operands, the register of RD alone could make a command ill-formed. -/
theorem assembleStatement_wellFormed {m : Mnemonic} {ops : List (List Char)} {is : List Instr}
    (h : assembleStatement m ops = some is) : AllWellFormed is := by
  unfold assembleStatement at h
  split at h
  · exact allWellFormed_map h fun _ _ => allWellFormed_singleton rfl
  · exact allWellFormed_map h fun _ _ => allWellFormed_singleton rfl
  · exact allWellFormed_map h fun _ _ => allWellFormed_singleton rfl
  · cases h; exact allWellFormed_singleton rfl
  · exact allWellFormed_map h fun _ _ => allWellFormed_singleton rfl
  · cases h; exact allWellFormed_singleton rfl
  · cases h; exact allWellFormed_singleton rfl
  · exact allWellFormed_map h fun n hn => allWellFormed_singleton (decide_eq_true (parseRegister_le hn))
  · exact allWellFormed_map h fun _ _ => allWellFormed_singleton rfl
  · cases h; exact allWellFormed_singleton rfl
  · split at h
    · cases h; simp [AllWellFormed, configCommands, Instr.wellFormed]
    · cases h
  · exact allWellFormed_map h fun bytes _ => allWellFormed_pushCommands bytes
  · exact allWellFormed_map h fun _ _ => allWellFormed_pushCommands [_, _]
  · exact allWellFormed_map h fun _ _ => allWellFormed_pushCommands [_, _]
  · cases h

theorem assembleLine_wellFormed {line : List Char} {is : List Instr} (h : assembleLine line = some is) :
    AllWellFormed is := by
  unfold assembleLine at h
  split at h
  · cases h; exact allWellFormed_nil
  · split at h
    · cases h
    · split at h
      · exact assembleStatement_wellFormed h
      · cases h

theorem assemble_wellFormed {lines : List (List Char)} : ∀ {is : List Instr}, assemble lines = some is →
    AllWellFormed is := by
  induction lines with
  | nil => intro is h; cases h; exact allWellFormed_nil
  | cons line rest ih =>
    intro is h
    unfold assemble at h
    split at h
    · next hline hrest => cases h; exact (assembleLine_wellFormed hline).append (ih hrest)
    · cases h

/-- Settles O6: a text assembles to well-formed commands, and their words decode. -/
theorem textSpellsLegalWordsOnly : Obligations.TextSpellsLegalWordsOnly := by
  intro lines ws h w hw
  obtain ⟨is, his, rfl⟩ := Option.map_eq_some_iff.1 h
  obtain ⟨i, hi, rfl⟩ := List.mem_map.1 hw
  exact ⟨i, decode_encode i (assemble_wellFormed his i hi), rfl⟩

/-! ### The pseudo-commands (R58) -/

/-- A word is its high byte and its low byte. -/
theorem append_bytes_of_word (v : Word16) : (v.extractLsb' 8 8 ++ v.extractLsb' 0 8 : Word16) = v :=
  (BitVec.extractLsb'_append_extractLsb'_eq_extractLsb' (start₁ := 0) (len₁ := 8) rfl).trans BitVec.extractLsb'_eq_self

/-- Settles O7: the expansions are the table's, and both byte orders give the word back. -/
theorem pseudoCommandsExpand : Obligations.PseudoCommandsExpand := by
  refine ⟨fun _ _ _ => rfl, fun bs => ⟨List.length_map _, fun k b hb => ?_⟩, fun v => ?_⟩
  · rw [pushCommands, List.getElem?_map, hb, Option.map_some]
  · refine ⟨v.extractLsb' 0 8, v.extractLsb' 8 8, ?_, ?_, rfl, rfl, append_bytes_of_word v, append_bytes_of_word v⟩
    · rw [BitVec.extractLsb'_toNat, Nat.shiftRight_zero]
    · rw [BitVec.extractLsb'_toNat, Nat.shiftRight_eq_div_pow]
      have := v.isLt
      omega

end Sys2Proof.Machine
end

section
/-! What a presented word runs, and the response every command gives (spec/30_encoding.md R49, R50, R55). -/

namespace Sys2Proof.Machine

/-! ### A legal and an illegal word -/

/-- Settles O8: `present` uses the word up and clears the response. -/
theorem stepRunsDecodedCommand : Obligations.StepRunsDecodedCommand := fun _ _ _ _ hq hd => step_command hq hd

/-- An illegal word the host presents is turned away. -/
theorem step_illegal {s : State} {w : PortWord} {e : Illegal} {rest : List HostEvent}
    (hq : s.hostQueue = .command w :: rest) (hd : decode w = .error e) : step s = runIllegal (present rest s) := by
  simp only [step, fetch_word hq, hd]

/-- The response of a fault: its code and no data (R50). -/
theorem responseWord_kind (k : Err) :
    responseWord (.kind k) 0 = BitVec.ofNat 40 (k.code.toNat * 2 ^ 32) := by
  rw [responseWord_eq_ofNat, byte_kind_toNat, BitVec.ofNat_eq_ofNat, BitVec.toNat_ofNat, Nat.zero_mod, Nat.add_zero]

theorem takeFault_eq_faulted (k : Err) (s : State) : takeFault k s = faulted k k.code.toNat s := by
  rw [faulted, ← responseWord_kind]
  rfl

theorem answerStored_eq_refusedInError (s : State) : answerStored s = refusedInError s := by
  rw [refusedInError, ← responseWord_kind]
  rfl

/-- Settles O9: an illegal word takes CmdError, and in phase ERROR the stored kind is answered. -/
theorem illegalWordTakesCmdError : Obligations.IllegalWordTakesCmdError := by
  intro s w rest e hq hd
  rw [step_illegal hq hd]
  refine ⟨fun hp => ?_, fun hp => ?_⟩
  · rw [runIllegal_not_error (s := present rest s) hp, takeFault_eq_faulted]
    rfl
  · rw [runIllegal_error (s := present rest s) hp, answerStored_eq_refusedInError]
    rfl

/-! ### The answer (R50, R122) -/

/-- The response port shows a response of one of the codes. -/
def Answered (t : State) : Prop := ∃ c d, t.response = some (responseWord c d)

theorem responseWord_code_le (c : RespCode) (d : Word32) : (responseWord c d).toNat / 2 ^ 32 ≤ 6 := by
  have := byte_toNat_le c
  have := d.isLt
  rw [responseWord_toNat]
  omega

theorem EmitEnd.answered {s u t : State} {rows : List (List Byte)} (h : EmitEnd s u rows t) :
    Answered t ∨ (t.response = none ∧ ResetValues t) := by
  cases h with
  | done => exact .inl ⟨_, _, rfl⟩
  | endRefused => exact .inl ⟨_, _, rfl⟩
  | rowRefused => exact .inl ⟨_, _, rfl⟩
  | endReset => exact .inr ⟨rfl, resetValues_resetBlock _⟩
  | rowReset => exact .inr ⟨rfl, resetValues_resetBlock _⟩

theorem Effect.answered {i : Instr} {s t : State} (h : Effect s i t) :
    Answered t ∨ (i = .emit ∧ t.response = none ∧ ResetValues t) := by
  cases h with
  | emit rows buf r _ _ _ _ _ hend => exact hend.answered.imp_right fun hreset => ⟨rfl, hreset⟩
  | _ => exact .inl ⟨_, _, rfl⟩

/-- Settles O45: every way a command gives a next state ends in a response, but for a hardware reset of an EMIT. -/
theorem everyCommandIsAnswered : Obligations.EveryCommandIsAnswered := by
  intro i s t h
  refine (exec_effect h).answered.imp_left ?_
  rintro ⟨c, d, hr⟩
  exact ⟨_, hr, responseWord_code_le c d⟩

end Sys2Proof.Machine
end

section
/-! The commands of run control and the acceptance table (spec/40_run_control.md R60 to R64, R67). -/

namespace Sys2Proof.Machine

/-! ### Commands turned away (R60) -/

theorem inPhase_faulted {p : Phase} {body : State → Result} {s : State} (hp : s.phase ≠ p) (he : s.phase ≠ .error) :
    inPhase p body s = .next (faulted .cmd 5 s) := by
  rw [inPhase_refused he hp, takeFault_eq_faulted]
  rfl

theorem inPhase_refusedInError {p : Phase} {body : State → Result} {s : State} (he : s.phase = .error) :
    inPhase p body s = .next (refusedInError s) := by
  rw [inPhase_error he, answerStored_eq_refusedInError]

/-- The acceptance table is what the commands check: a command with a phase of its own runs a body in that phase alone. -/
theorem exec_eq_inPhase {i : Instr} {p : Phase} (hi : homePhase i = some p) : ∃ body, exec i = inPhase p body := by
  cases i <;> cases hi <;> exact ⟨_, rfl⟩

/-- Settles O37: a command with a phase of its own goes through `inPhase`. -/
theorem commandOutOfPhase : Obligations.CommandOutOfPhase := by
  intro i s p hi hp he
  obtain ⟨body, hbody⟩ := exec_eq_inPhase hi
  rw [hbody, inPhase_faulted hp he]

/-! ### RESET (R67) -/

/-- A reset takes back nothing the sink port has seen (spec/70_reset_and_hazards.md R117). -/
@[simp] theorem sinkHistory_resetBlock (s : State) : sinkHistory (resetBlock s) = sinkHistory s := List.append_nil _

/-- Settles O12: the must-be-zero ARG is the operand form's, the rest is what `resetBlock` leaves. -/
theorem resetCommand : Obligations.ResetCommand := by
  refine ⟨rfl, fun arg h => (decode_reset arg).trans (formNone_argNotZero h), fun s => ?_⟩
  exact ⟨_, rfl, resetValues_resetBlock s, rfl, sinkHistory_resetBlock s, rfl, rfl, rfl⟩

/-! ### The configuration (R61 to R63) -/

/-- A command that updates a register in IDLE: its three outcomes by the phase. -/
theorem inPhase_idle_update (f : State → State) (s : State) :
    (s.phase = .idle → inPhase .idle (fun s => .next (respond .ok 0 (f s))) s = .next { f s with response := some 0 }) ∧
    (s.phase ≠ .idle ∧ s.phase ≠ .error →
      inPhase .idle (fun s => .next (respond .ok 0 (f s))) s = .next (faulted .cmd 5 s)) ∧
    (s.phase = .error → inPhase .idle (fun s => .next (respond .ok 0 (f s))) s = .next (refusedInError s)) :=
  ⟨fun hp => inPhase_accepted hp nofun, fun ⟨hp, he⟩ => inPhase_faulted hp he, inPhase_refusedInError⟩

/-- Settles O14: SETW is the update `setWidth`. -/
theorem setwWritesWidth : Obligations.SetwWritesWidth :=
  fun v s => ⟨packWord_toNat 0x01 v, inPhase_idle_update (setWidth v) s⟩

/-- Settles O15: SETH is the update `setHeight`. -/
theorem sethWritesHeight : Obligations.SethWritesHeight :=
  fun v s => ⟨packWord_toNat 0x02 v, inPhase_idle_update (setHeight v) s⟩

/-- Settles O16: SETBE is the update `setBe`, and its operand form finds the must-be-zero bits. -/
theorem setbeWritesByteOrder : Obligations.SetbeWritesByteOrder := by
  refine ⟨fun arg h => (decode_setbe arg).trans (formImm1_argNotZero h), fun b s => ⟨?_, inPhase_idle_update (setBe b) s⟩⟩
  cases b <;> rfl

/-! ### START (R64) -/

/-- START's three checks are one condition on the dimensions. -/
theorem startBody_of_badSize {s : State}
    (h : s.width.toNat = 0 ∨ s.height.toNat = 0 ∨ maxPix s < s.width.toNat * s.height.toNat) :
    startBody s = .next (takeFault .config s) := by
  unfold startBody
  split_ifs with hzero hlarge
  · rfl
  · rfl
  · obtain ⟨hw, hh⟩ := not_or.1 hzero
    have hw' := BitVec.toNat_pos_of_ne_zero hw
    have hh' := BitVec.toNat_pos_of_ne_zero hh
    exact absurd h (by simp only [pixelCount] at hlarge; omega)

theorem startBody_of_legalSize {s : State} (hw : 1 ≤ s.width.toNat) (hh : 1 ≤ s.height.toNat)
    (hc : pixelCount s ≤ maxPix s) :
    startBody s = .next (respond .ok 0
      (setPhase .loading (setRawLen 0 (setExpLen (BitVec.ofNat 64 (2 * pixelCount s)) s)))) := by
  rw [startBody, if_neg, if_neg (by omega)]
  rintro (h | h) <;> simp [h] at hw hh

/-- Which command a fault of each kind is taken by (spec/60_exceptions.md R102). -/
theorem Effect.fault_kind {i : Instr} {s t : State} (h : Effect s i t) (hs : s.phase ≠ .error) (ht : t.phase = .error) :
    t.err = .cmd ∨ (t.err = .config ∧ i = .start) ∨ (t.err = .format ∧ i = .decode) ∨
      ((t.err = .io ∨ t.err = .encode) ∧ i = .emit) := by
  cases h with
  | outOfPhase => exact .inl rfl
  | badSize => exact .inr (.inl ⟨rfl, rfl⟩)
  | badLength => exact .inr (.inr (.inl ⟨rfl, rfl⟩))
  | emit rows buf r _ _ _ _ _ hend =>
    refine .inr (.inr (.inr ⟨?_, rfl⟩))
    cases hend with
    | rowRefused => exact .inl rfl
    | endRefused => exact .inr rfl
    | _ => cases ht
  | reset => cases ht
  | start => cases ht
  | decode => cases ht
  | pushStored => exact absurd (by simpa using ht) hs
  | pushDropped => exact absurd (by simpa using ht) hs
  | _ => exact absurd ht hs

/-- Settles O17: START checks the dimensions in unbounded arithmetic, and EXPLEN has room for twice their product. -/
theorem startValidatesDimensions : Obligations.StartValidatesDimensions := by
  refine ⟨rfl, fun s => ⟨fun hp hbad => ?_, fun hp hw hh hc => ?_, fun ⟨hp, he⟩ => inPhase_faulted hp he,
    inPhase_refusedInError, fun i t h hs ht herr => ?_⟩⟩
  · exact (inPhase_accepted hp nofun).trans (by rw [startBody_of_badSize hbad, takeFault_eq_faulted]; rfl)
  · exact ⟨_, expLen_fits hc, (inPhase_accepted hp nofun).trans (startBody_of_legalSize hw hh hc)⟩
  · simpa [herr] using (exec_effect h).fault_kind hs ht

end Sys2Proof.Machine
end

section
/-! The changes of PHASE (spec/40_run_control.md R65). -/

namespace Sys2Proof.Machine

/-- EMIT ends in DONE with the whole image accepted, in ERROR, or in a hardware reset. -/
theorem EmitEnd.phase_cases {s u t : State} {rows : List (List Byte)} (h : EmitEnd s u rows t) :
    (t.phase = .done ∧ rows.length = s.height.toNat ∧ t.sinkSent = u.sinkSent ++ [endAnswered .ok]) ∨
    t.phase = .error ∨ (t.phase = .idle ∧ ResetValues t ∧ t.response = none) := by
  cases h with
  | done r hl => exact .inl ⟨rfl, hl, rfl⟩
  | endRefused => exact .inr (.inl rfl)
  | rowRefused => exact .inr (.inl rfl)
  | endReset => exact .inr (.inr ⟨rfl, resetValues_resetBlock _, rfl⟩)
  | rowReset => exact .inr (.inr ⟨rfl, resetValues_resetBlock _, rfl⟩)

/-- Settles O41: START, DECODE and EMIT move on, three commands' checks and the acceptance table take faults, a reset goes
back to IDLE, and every other way a command gives a next state keeps PHASE. -/
theorem phaseChanges : Obligations.PhaseChanges := by
  intro i s t h hne
  cases exec_effect h with
  | start hp hw hh hc =>
    exact .inl ⟨hp, rfl, rfl, BitVec.toNat_pos_of_ne_zero hw, BitVec.toNat_pos_of_ne_zero hh, hc⟩
  | decode ps m hp hlen => exact .inr (.inl ⟨hp, rfl, rfl, hlen⟩)
  | emit rows buf r _ hp _ _ _ hend =>
    rcases hend.phase_cases with ⟨hdone, hl, hsent⟩ | herr | ⟨hidle, hreset, hresp⟩
    · exact .inr (.inr (.inl ⟨hp, hdone, rfl, rows, hl, hsent⟩))
    · exact .inr (.inr (.inr (.inl ⟨by simp [hp], herr⟩)))
    · exact .inr (.inr (.inr (.inr ⟨hidle, hreset, .inr ⟨rfl, hresp⟩⟩)))
  | outOfPhase _ hp => exact .inr (.inr (.inr (.inl ⟨hp, rfl⟩)))
  | badSize hp => exact .inr (.inr (.inr (.inl ⟨by simp [hp], rfl⟩)))
  | badLength hp => exact .inr (.inr (.inr (.inl ⟨by simp [hp], rfl⟩)))
  | reset => exact .inr (.inr (.inr (.inr ⟨rfl, resetValues_resetBlock s, .inl rfl⟩)))
  | pushStored => simp at hne
  | pushDropped => simp at hne
  | _ => exact absurd rfl hne

theorem exec_phaseMove {i : Instr} {s t : State} (h : exec i s = .next t) : phaseMove s.phase t.phase := by
  by_cases hkeep : t.phase = s.phase
  · exact .inl hkeep
  rcases phaseChanges i s t h hkeep with
    ⟨hs, ht, -⟩ | ⟨hs, ht, -⟩ | ⟨hs, ht, -⟩ | ⟨-, ht⟩ | ⟨ht, -⟩
  · exact .inr (.inl ⟨hs, ht⟩)
  · exact .inr (.inr (.inl ⟨hs, ht⟩))
  · exact .inr (.inr (.inr (.inl ⟨hs, ht⟩)))
  · exact .inr (.inr (.inr (.inr (.inl ht))))
  · exact .inr (.inr (.inr (.inr (.inr ht))))

theorem runIllegal_phaseMove {s t : State} (h : runIllegal s = .next t) : phaseMove s.phase t.phase := by
  rcases runIllegal_next h with ⟨-, rfl⟩ | ⟨-, rfl⟩ <;> simp [phaseMove]

/-- Settles O42: a step waits, resets, runs a command or turns an illegal word away, and each makes a listed change. -/
theorem stepMovesPhaseForward : Obligations.StepMovesPhaseForward := by
  intro s t h
  rcases step_cases s with ⟨-, he⟩ | ⟨rest, -, he⟩ | ⟨w, rest, i, -, -, he⟩ | ⟨w, rest, e, -, -, he⟩ <;> rw [he] at h
  · cases h; exact .inl rfl
  · cases h; simp [phaseMove]
  · exact exec_phaseMove (s := present rest s) h
  · exact runIllegal_phaseMove (s := present rest s) h

end Sys2Proof.Machine
end

section
/-! The pure functions of the Decoder (spec/41_decoder.md R72 to R75, R78). -/

namespace Sys2Proof.Machine

/-! ### The fields of a packed word (R72) -/

/-- A bit field of a packed word as a number: the bits below it are cut off by division, those above by remainder. -/
theorem toNat_field (w : Word16) (start len : Nat) :
    (w.extractLsb' start len).toNat = w.toNat / 2 ^ start % 2 ^ len := by
  rw [BitVec.extractLsb'_toNat, Nat.shiftRight_eq_div_pow]

theorem toNat_red5 (w : Word16) : (unpack5551 w).red5.toNat = w.toNat / 2048 :=
  (toNat_field w 11 5).trans (Nat.mod_eq_of_lt (Nat.div_lt_of_lt_mul w.isLt))

theorem toNat_green5 (w : Word16) : (unpack5551 w).green5.toNat = w.toNat / 64 % 32 := toNat_field w 6 5

theorem toNat_blue5 (w : Word16) : (unpack5551 w).blue5.toNat = w.toNat / 2 % 32 := toNat_field w 1 5

theorem toNat_alpha1 (w : Word16) : (unpack5551 w).alpha1.toNat = w.toNat % 2 :=
  (toNat_field w 0 1).trans (by rw [pow_zero, Nat.div_one, pow_one])

/-- Settles O21: the four fields as numbers, and their weighted sum. -/
theorem unpackCoversTheWord : Obligations.UnpackCoversTheWord := by
  intro w
  refine ⟨toNat_red5 w, toNat_green5 w, toNat_blue5 w, toNat_alpha1 w, ?_⟩
  rw [toNat_red5, toNat_green5, toNat_blue5, toNat_alpha1]
  omega

/-! ### The pixel of two bytes (R73 to R75) -/

/-- A five-bit intensity scales to at most 255, so no bit of the rounded quotient is lost. -/
theorem toNat_rescale5 (v : BitVec 5) : (rescale5 v).toNat = (v.toNat * 255 + 15) / 31 := by
  have := v.isLt
  rw [rescale5, BitVec.toNat_ofNat]
  omega

theorem toNat_alpha8 (a : BitVec 1) : (alpha8 a).toNat = a.toNat * 255 := by
  have := a.isLt
  rw [alpha8, BitVec.toNat_ofNat]
  omega

theorem toNat_word16 (b0 b1 : Byte) (be : Bool) :
    (word16 b0 b1 be).toNat = if be then b0.toNat * 256 + b1.toNat else b1.toNat * 256 + b0.toNat := by
  obtain ⟨hle, hbe, -⟩ := wordOfTwoBytes b0 b1
  cases be
  · exact hle
  · exact hbe

theorem toNat_decodePixel_red (b0 b1 : Byte) (be : Bool) :
    (decodePixel b0 b1 be).red.toNat = ((word16 b0 b1 be).toNat / 2048 * 255 + 15) / 31 := by
  rw [← toNat_red5]; exact toNat_rescale5 _

theorem toNat_decodePixel_green (b0 b1 : Byte) (be : Bool) :
    (decodePixel b0 b1 be).green.toNat = ((word16 b0 b1 be).toNat / 64 % 32 * 255 + 15) / 31 := by
  rw [← toNat_green5]; exact toNat_rescale5 _

theorem toNat_decodePixel_blue (b0 b1 : Byte) (be : Bool) :
    (decodePixel b0 b1 be).blue.toNat = ((word16 b0 b1 be).toNat / 2 % 32 * 255 + 15) / 31 := by
  rw [← toNat_blue5]; exact toNat_rescale5 _

theorem toNat_decodePixel_alpha (b0 b1 : Byte) (be : Bool) :
    (decodePixel b0 b1 be).alpha.toNat = (word16 b0 b1 be).toNat % 2 * 255 := by
  rw [← toNat_alpha1]; exact toNat_alpha8 _

/-- Settles O22: the number is that of `word16`, and each channel scales its own field. -/
theorem decodePixelFormula : Obligations.DecodePixelFormula := fun b0 b1 be =>
  ⟨(word16 b0 b1 be).toNat, toNat_word16 b0 b1 be, toNat_decodePixel_red b0 b1 be, toNat_decodePixel_green b0 b1 be,
    toNat_decodePixel_blue b0 b1 be, toNat_decodePixel_alpha b0 b1 be⟩

/-! ### The laws of the pixel functions (R78) -/

/-- Each step of the intensity adds at least 8 to the quotient. -/
theorem rescale5_lt {v1 v2 : BitVec 5} (h : v1.toNat < v2.toNat) : (rescale5 v1).toNat < (rescale5 v2).toNat := by
  rw [toNat_rescale5, toNat_rescale5]
  omega

/-- Swapping the two bytes is changing the byte order. -/
theorem decodePixel_swap (b0 b1 : Byte) : decodePixel b0 b1 false = decodePixel b1 b0 true := rfl

/-- Alpha comes from the low bit of the low byte. -/
theorem toNat_decodePixel_alpha_le (b0 b1 : Byte) : (decodePixel b0 b1 false).alpha.toNat = 255 * (b0.toNat % 2) := by
  have hw : (word16 b0 b1 false).toNat = b1.toNat * 256 + b0.toNat := toNat_word16 b0 b1 false
  rw [toNat_decodePixel_alpha, hw]
  omega

end Sys2Proof.Machine
end

section
/-! The Decoder's commands PUSH and DECODE (spec/41_decoder.md R70, R71, R78). -/

namespace Sys2Proof.Machine

/-! ### PUSH (R70) -/

theorem storePushed_full {s : State} (b : Byte) (h : s.expLen.toNat ≤ s.rawLen.toNat) : storePushed b s = .ok s :=
  if_neg (by omega)

/-- PUSH in LOADING with the raw buffer full: the byte is only counted. -/
theorem exec_push_full {s : State} (b : Byte) (hp : s.phase = .loading) (h : s.expLen.toNat ≤ s.rawLen.toNat) :
    exec (.push b) s = .next (respond .ok 0 (setRawLen (countPushed s).rawLen s)) := by
  have hbody : exec (.push b) s = pushBody b s := inPhase_accepted hp nofun
  simp only [hbody, pushBody, storePushed_full b h]
  rw [← countPushed_eq_setRawLen]

/-- The count of pushes goes up by one until it saturates. -/
theorem toNat_rawLen_succ {s : State} (h : s.rawLen.toNat < 2 ^ 64 - 1) : (s.rawLen + 1).toNat = s.rawLen.toNat + 1 := by
  have hcount := countPushed_rawLen_toNat s
  rw [countPushed_of_lt h, setRawLen_rawLen] at hcount
  omega

/-- Settles O18: below EXPLEN, and so below saturation, the byte is stored and counted; from EXPLEN on it is counted. -/
theorem pushStoresAndCounts : Obligations.PushStoresAndCounts := by
  refine fun b s => ⟨?word, fun arg h => (decode_push arg).trans (formImm8_argNotZero h), fun hp hlt hcap => ?stored,
    fun hp hfull => ?dropped, fun ⟨hp, he⟩ => inPhase_faulted hp he, inPhase_refusedInError⟩
  case word => exact (packWord_toNat 0x05 _).trans (by rw [toNat_byteArg]; rfl)
  case stored =>
    have hlen : s.rawLen.toNat < 2 ^ 64 - 1 := by have := s.expLen.isLt; omega
    refine ⟨_, exec_push_loading b hp hcap hlen, rfl, toNat_rawLen_succ hlen, fun a => ?_⟩
    refine (read_storedBelow _ _ _ _ _).trans ?_
    simp only [hlt, and_true]
  case dropped => exact ⟨_, countPushed_rawLen_toNat s, exec_push_full b hp hfull⟩

/-! ### DECODE (R71) -/

theorem exec_decode_badLength {s : State} (hp : s.phase = .loading) (h : s.rawLen ≠ s.expLen) :
    exec .decode s = .next (takeFault .format s) :=
  (inPhase_accepted hp nofun).trans (if_pos h)

theorem RawWhole.readRaw_ok {s : State} (h : RawWhole s) {a : Nat} (ha : a < 2 * pixelCount s) :
    ∃ b, readRaw a s = .ok b := by
  obtain ⟨hfit, hheld⟩ := h
  obtain ⟨b, hb⟩ := hheld a ha
  exact ⟨b, readRaw_eq_ok.2 ⟨by unfold rawCap; omega, hb⟩⟩

/-- Over a whole raw buffer the Decoder's loop ends without a stop. -/
theorem RawWhole.decodePixels_ok {s : State} (h : RawWhole s) {n : Nat} : ∀ {i : Nat}, i + n ≤ pixelCount s →
    ∃ ps, decodePixels s i n = .ok ps := by
  induction n with
  | zero => exact fun _ => ⟨[], rfl⟩
  | succ n ih =>
    intro i hi
    obtain ⟨b0, h0⟩ := h.readRaw_ok (a := 2 * i) (by omega)
    obtain ⟨b1, h1⟩ := h.readRaw_ok (a := 2 * i + 1) (by omega)
    obtain ⟨ps, hps⟩ := ih (i := i + 1) (by omega)
    exact ⟨decodePixel b0 b1 s.be :: ps, by simp only [decodePixels, h0, h1, hps]⟩

/-- The contents of RASTER after a successful DECODE: below WIDTH*HEIGHT the pixel of each index's own two bytes, and what
stood there from WIDTH*HEIGHT on. -/
structure RasterDecoded (s : State) (m : Memory Pixel) : Prop where
  below : ∀ i b0 b1, i < pixelCount s → Memory.read s.raw (2 * i) = some b0 → Memory.read s.raw (2 * i + 1) = some b1 →
    Memory.read m i = some (decodePixel b0 b1 s.be)
  above : ∀ i, pixelCount s ≤ i → Memory.read m i = Memory.read s.raster i

/-- Writing the decoded pixels from index 0 on fills RASTER. -/
theorem rasterDecoded_of_writeRange {s : State} {ps : List Pixel} {m : Memory Pixel}
    (hps : decodePixels s 0 (pixelCount s) = .ok ps)
    (hm : Memory.writeRange .raster (rasterCap s) s.raster 0 ps = .ok m) : RasterDecoded s m := by
  obtain ⟨hlen, hpix⟩ := decodePixels_eq_ok.1 hps
  constructor
  case below =>
    intro i b0 b1 hi h0 h1
    obtain ⟨c0, c1, hc0, hc1, hget⟩ := hpix i hi
    rw [Nat.zero_add, readRaw_eq_ok] at hc0 hc1
    obtain rfl : b0 = c0 := Option.some.inj (h0.symm.trans hc0.2)
    obtain rfl : b1 = c1 := Option.some.inj (h1.symm.trans hc1.2)
    rw [Memory.read_writeRange hm, if_pos (by omega), Nat.sub_zero, hget]
  case above =>
    intro i hi
    rw [Memory.read_writeRange hm, if_neg (by omega)]

/-- DECODE of a whole raw buffer in LOADING. -/
theorem exec_decode_loading {s : State} (hp : s.phase = .loading) (hlen : s.rawLen = s.expLen) (hw : RawWhole s) :
    ∃ m, exec .decode s = .next (respond .ok 0 (setPhase .decoded (setRaster m s))) ∧ RasterDecoded s m := by
  obtain ⟨ps, hps⟩ := hw.decodePixels_ok (i := 0) (n := pixelCount s) (by omega)
  have hfit : 0 + ps.length ≤ rasterCap s := by
    obtain ⟨hcount, -⟩ := decodePixels_eq_ok.1 hps
    have hmax : pixelCount s ≤ rasterCap s := hw.1
    omega
  obtain ⟨m, hm⟩ := Memory.writeRange_ok (name := .raster) s.raster hfit
  have hbody : exec .decode s = decodeBody s := inPhase_accepted hp nofun
  refine ⟨m, ?_, rasterDecoded_of_writeRange hps hm⟩
  simp only [hbody, decodeBody, if_neg (not_not.2 hlen), hps, writeRaster_eq_ok.2 ⟨m, hm, rfl⟩]

/-- Settles O19: the length check, then the loop over the whole raw buffer. -/
theorem decodeFillsRaster : Obligations.DecodeFillsRaster := by
  refine ⟨rfl, fun s => ⟨fun hp hlen => ?badLength, fun hp hlen hw => ?decoded, fun ⟨hp, he⟩ => inPhase_faulted hp he,
    inPhase_refusedInError⟩⟩
  case badLength => rw [exec_decode_badLength hp hlen, takeFault_eq_faulted]; rfl
  case decoded =>
    obtain ⟨m, hexec, hm⟩ := exec_decode_loading hp hlen hw
    exact ⟨_, hexec, rfl, hm.below, hm.above⟩

/-! ### The laws of R78, with the raw buffer of zeros -/

theorem decodePixel_zero (be : Bool) : decodePixel 0 0 be = ⟨0, 0, 0, 0⟩ := by cases be <;> rfl

theorem decodePixel_saturated (be : Bool) : decodePixel 0xFF 0xFF be = ⟨255, 255, 255, 255⟩ := by cases be <;> rfl

/-- DECODE of a raw buffer of zeros leaves zero pixels. -/
theorem exec_decode_zeros {s : State} (hp : s.phase = .loading) (hlen : s.rawLen = s.expLen)
    (hfit : pixelCount s ≤ maxPix s) (hzero : ∀ a, a < 2 * pixelCount s → Memory.read s.raw a = some 0) :
    ∃ t, exec .decode s = .next t ∧ ∀ i, i < pixelCount s → Memory.read t.raster i = some ⟨0, 0, 0, 0⟩ := by
  obtain ⟨m, hexec, hm⟩ := exec_decode_loading hp hlen ⟨hfit, fun a ha => ⟨0, hzero a ha⟩⟩
  refine ⟨_, hexec, fun i hi => ?_⟩
  rw [← decodePixel_zero s.be]
  exact hm.below i 0 0 hi (hzero _ (by omega)) (hzero _ (by omega))

/-- Settles O23: the pixel functions' laws one by one; big-endian alpha is little-endian alpha of the swapped bytes. -/
theorem pixelLaws : Obligations.PixelLaws :=
  ⟨decodePixel_zero, decodePixel_saturated, fun _ _ => rescale5_lt, rfl, rfl,
    fun b0 b1 => ⟨decodePixel_swap b0 b1, toNat_decodePixel_alpha_le b0 b1,
      decodePixel_swap b1 b0 ▸ toNat_decodePixel_alpha_le b1 b0⟩,
    fun _ => exec_decode_zeros⟩

end Sys2Proof.Machine
end

section
/-! EMIT in DECODED, up to the transaction the sink's answers lead it to (spec/42_row_emitter.md R80 to R87). -/

namespace Sys2Proof.Machine

theorem exec_emit_decoded {s : State} (hp : s.phase = .decoded) : exec .emit s = emitBody s :=
  inPhase_accepted hp nofun

/-- EMIT's progress from ROWCNT 0: ROWCNT is the number of rows accepted. -/
theorem emitProgress_from_zero (rows : List (List Byte)) (buf : Memory Byte) (r : List SinkReply) (s : State) :
    emitProgress rows buf r (setRowCnt 0 s) = { s with
      rowCnt := BitVec.ofNat 32 rows.length, rowBuf := buf, sinkReplies := r,
      sinkSent := s.sinkSent ++ rows.map rowAccepted } := by
  simp [emitProgress, setRowCnt]

/-- A sink that accepts every row brings EMIT to the end-of-image signal (R80). -/
theorem exec_emit_reaches_end {s : State} {r : List SinkReply} (hp : s.phase = .decoded) (hw : RasterWhole s)
    (hr : s.sinkReplies = List.replicate s.height.toNat (.answer .ok) ++ r) :
    ∃ rows buf, rows.length = s.height.toNat ∧ RowsOf s rows ∧ RowBufAfter s rows buf ∧
      exec .emit s = emitEnd { s with
        rowCnt := s.height, rowBuf := buf, sinkReplies := r, sinkSent := s.sinkSent ++ rows.map rowAccepted } := by
  obtain ⟨rows, buf, hl, hrows, ⟨-, -, hbuf⟩, hbody⟩ :=
    emitBody_reaches hw (Nat.le_refl _) hr fun h => absurd h (Nat.lt_irrefl _)
  refine ⟨rows, buf, hl, hrows, hbuf, ?_⟩
  rw [exec_emit_decoded hp, hbody, Nat.sub_self, emitProgress_from_zero, hl, BitVec.ofNat_toNat, BitVec.setWidth_eq,
    emitRows]

/-- A sink that accepts the rows before row `y`, and no more at once, brings EMIT to the transaction of row `y` (R84). -/
theorem exec_emit_reaches_row {s : State} {y : Nat} {r : List SinkReply} (hp : s.phase = .decoded) (hw : RasterWhole s)
    (hy : y < s.height.toNat) (hr : s.sinkReplies = List.replicate y (.answer .ok) ++ r)
    (hstop : ∀ q, r ≠ .answer .ok :: q) :
    ∃ rows bytes buf onOk, rows.length = y ∧ RowsOf s rows ∧ RowOf s y bytes ∧ RowBufAfter s (rows ++ [bytes]) buf ∧
      exec .emit s = sinkTransact (.row bytes) onOk (fun u => .next (takeFault .io u)) { s with
        rowCnt := BitVec.ofNat 32 y, rowBuf := buf, sinkReplies := r,
        sinkSent := s.sinkSent ++ rows.map rowAccepted } := by
  obtain ⟨rows, buf, rfl, hrows, hbuf, hbody⟩ := emitBody_reaches hw (Nat.le_of_lt hy) hr fun _ => hstop
  obtain ⟨n, hn⟩ : ∃ n, s.height.toNat - rows.length = n + 1 := ⟨_, (Nat.sub_add_cancel (Nat.sub_pos_of_lt hy)).symm⟩
  obtain ⟨t, ht⟩ := buildRow_ok (s := emitProgress rows buf r (setRowCnt 0 s)) hw hy
  obtain ⟨m, bytes, rfl, hm, hrow, hread⟩ := buildRow_next ht
  have hrow' : RowOf s rows.length bytes := hrow.congr rfl rfl
  obtain ⟨-, -, hbuilt⟩ := bufferAfter_built hbuf hrow' hm
  have hexec := (exec_emit_decoded hp).trans hbody
  rw [hn, emitRows_succ ht hread, emitProgress_from_zero] at hexec
  exact ⟨rows, bytes, m, _, rfl, hrows, hrow', hbuilt, hexec⟩

/-! ### The ends a sink's answers lead to (R83 to R85, R87) -/

/-- Settles O25: the last of the answers is the end-of-image signal's. -/
theorem emitSucceeds : Obligations.EmitSucceeds := by
  intro s rest hp hw hr
  rw [List.replicate_succ', List.append_assoc] at hr
  obtain ⟨rows, buf, hl, hrows, hbuf, hexec⟩ := exec_emit_reaches_end hp hw hr
  exact ⟨rows, _, hl, hrows, hexec.trans (sinkTransact_ok rfl), hbuf, rfl⟩

/-- Settles O27: EMIT comes to row `y` and takes the sink's `fail` there. -/
theorem emitAbortsOnRefusedRow : Obligations.EmitAbortsOnRefusedRow := by
  intro s y rest hp hw hy hr
  obtain ⟨rows, bytes, buf, onOk, hl, hrows, hrow, hbuf, hexec⟩ := exec_emit_reaches_row hp hw hy hr nofun
  exact ⟨rows, bytes, _, hl, hrows, hrow, hexec.trans (sinkTransact_fail rfl), hbuf, by rw [← hp]; rfl⟩

/-- Settles O28: EMIT comes to the end-of-image signal and takes the sink's `fail` there. -/
theorem emitRefusedAtTheEnd : Obligations.EmitRefusedAtTheEnd := by
  intro s rest hp hw hr
  obtain ⟨rows, buf, hl, hrows, hbuf, hexec⟩ := exec_emit_reaches_end hp hw hr
  exact ⟨rows, _, hl, hrows, hexec.trans (sinkTransact_fail rfl), hbuf, by rw [← hp]; rfl⟩

/-- Settles O29: the answers run out at a row, or at the end-of-image signal. -/
theorem emitHangsOnSilentSink : Obligations.EmitHangsOnSilentSink := by
  intro s k hp hw hk hr
  rw [← List.append_nil (List.replicate k _)] at hr
  rcases Nat.lt_or_eq_of_le hk with hlt | rfl
  · obtain ⟨_, _, _, _, -, -, -, -, hexec⟩ := exec_emit_reaches_row hp hw hlt hr nofun
    exact hexec.trans (sinkTransact_silent rfl)
  · obtain ⟨_, _, -, -, -, hexec⟩ := exec_emit_reaches_end hp hw hr
    exact hexec.trans (sinkTransact_silent rfl)

/-! ### The bytes the sink is given (R86) -/

theorem RowsOf.row_length {s : State} {rows : List (List Byte)} (h : RowsOf s rows) :
    ∀ b ∈ rows, b.length = 4 * s.width.toNat := by
  intro b hb
  obtain ⟨y, hy, rfl⟩ := List.getElem_of_mem hb
  obtain ⟨bytes, hget, hlen, -⟩ := h y hy
  rw [List.getElem?_eq_getElem hy, Option.some.injEq] at hget
  rw [hget, hlen]

/-- An index below `w * h` is that of a column of a row. -/
theorem exists_row_column {w h i : Nat} (hi : i < w * h) : ∃ y x, y < h ∧ x < w ∧ i = y * w + x :=
  ⟨i / w, i % w, Nat.div_lt_of_lt_mul hi, Nat.mod_lt _ (Nat.pos_of_mul_pos_right (Nat.zero_lt_of_lt hi)),
    (Nat.div_add_mod' i w).symm⟩

/-- The rows of the whole Raster, one after the other, are its pixels one after the other. -/
theorem RowsOf.flatten_pixel {s : State} {rows : List (List Byte)} (h : RowsOf s rows)
    (hl : rows.length = s.height.toNat) {i : Nat} (hi : i < pixelCount s) :
    ∃ p, Memory.read s.raster i = some p ∧
      rows.flatten[4 * i]? = some p.red ∧ rows.flatten[4 * i + 1]? = some p.green ∧
      rows.flatten[4 * i + 2]? = some p.blue ∧ rows.flatten[4 * i + 3]? = some p.alpha := by
  obtain ⟨y, x, hy, hx, rfl⟩ := exists_row_column hi
  obtain ⟨bytes, hget, -, hpix⟩ := h y (hl ▸ hy)
  have byte : ∀ c, c < 4 → rows.flatten[4 * (y * s.width.toNat + x) + c]? = bytes[4 * x + c]? := fun c hc => by
    rw [← getElem?_flatten_rows h.row_length (by omega) hget]
    congr 1
    ring
  obtain ⟨p, hread, hred, hgreen, hblue, halpha⟩ := hpix x hx
  exact ⟨p, hread, (byte 0 (by decide)).trans hred, (byte 1 (by decide)).trans hgreen,
    (byte 2 (by decide)).trans hblue, (byte 3 (by decide)).trans halpha⟩

/-- Settles O26: the HEIGHT rows of a successful EMIT, laid out. -/
theorem emittedBytesAreTheRaster : Obligations.EmittedBytesAreTheRaster := by
  intro s rest hp hw hr
  obtain ⟨rows, t, hl, hrows, hexec, -, ht⟩ := emitSucceeds s rest hp hw hr
  refine ⟨rows, t, hexec, by rw [ht], hl, ?_, fun i hi => hrows.flatten_pixel hl hi⟩
  rw [length_flatten_rows hrows.row_length, hl]

end Sys2Proof.Machine
end

section
/-! EMIT whatever the sink answers: what it sends and what it leaves unchanged (spec/42_row_emitter.md R80, R83). -/

namespace Sys2Proof.Machine

/-! ### The transactions (R83) -/

@[simp] theorem sinkHistory_recordTxn (q : SinkRequest) (a : Option SinkAnswer) (r : List SinkReply) (s : State) :
    sinkHistory (recordTxn q a r s) = sinkHistory s ++ [{ request := q, answer := a }] :=
  (List.append_assoc ..).symm

@[simp] theorem sinkHistory_emitProgress (rows : List (List Byte)) (buf : Memory Byte) (r : List SinkReply) (s : State) :
    sinkHistory (emitProgress rows buf r s) = sinkHistory s ++ rows.map rowAccepted :=
  (List.append_assoc ..).symm

/-- What may follow the rows accepted: the next row, or the end-of-image signal after the last. -/
def NextRequest (s : State) (rows : List (List Byte)) (q : SinkRequest) : Prop :=
  (rows.length < s.height.toNat ∧ ∃ bytes, q = .row bytes ∧ RowOf s rows.length bytes) ∨
  (rows.length = s.height.toNat ∧ q = .endOfImage)

/-- Every end of an EMIT makes one last transaction, the one that is due. -/
theorem EmitEnd.last_transaction {s u t : State} {rows : List (List Byte)} (h : EmitEnd s u rows t) :
    ∃ last, sinkHistory t = sinkHistory u ++ [last] ∧ NextRequest s rows last.request := by
  cases h with
  | done r hl => exact ⟨_, sinkHistory_recordTxn .endOfImage (some .ok) r u, .inr ⟨hl, rfl⟩⟩
  | endRefused r hl => exact ⟨_, sinkHistory_recordTxn .endOfImage (some .fail) r u, .inr ⟨hl, rfl⟩⟩
  | endReset a r hl => exact ⟨_, (sinkHistory_resetBlock _).trans (sinkHistory_recordTxn ..), .inr ⟨hl, rfl⟩⟩
  | rowRefused m bytes r hl hrow =>
    exact ⟨_, sinkHistory_recordTxn (.row bytes) (some .fail) r (setRowBuf m u), .inl ⟨hl, bytes, rfl, hrow⟩⟩
  | rowReset m bytes a r hl hrow =>
    exact ⟨_, (sinkHistory_resetBlock _).trans (sinkHistory_recordTxn ..), .inl ⟨hl, bytes, rfl, hrow⟩⟩

/-- Settles O31: the rows accepted and then the one last transaction. -/
theorem emitSendsRowsInOrder : Obligations.EmitSendsRowsInOrder := by
  intro s t hp h
  rw [exec_emit_decoded hp] at h
  obtain ⟨rows, buf, r, hl, hrows, -, hend⟩ := emitBody_next h
  obtain ⟨last, hhist, hlast⟩ := hend.last_transaction
  exact ⟨rows, last, hrows, hl, by rw [hhist, sinkHistory_emitProgress]; rfl, hlast⟩

/-! ### What stays (R80) -/

/-- ROWBUF above the first row's length is as it was. -/
theorem RowBufAfter.read_above {s : State} {rows : List (List Byte)} {buf : Memory Byte} (h : RowBufAfter s rows buf)
    (a : Nat) (ha : 4 * s.width.toNat ≤ a) : Memory.read buf a = Memory.read s.rowBuf a :=
  (h a).trans (if_neg (Nat.not_lt.2 ha))

/-- What an EMIT that no hardware reset ends keeps whole. -/
def EmitKeeps (s t : State) : Prop :=
  t.be = s.be ∧ t.width = s.width ∧ t.height = s.height ∧ t.rawLen = s.rawLen ∧ t.expLen = s.expLen ∧
  t.raw = s.raw ∧ t.raster = s.raster ∧ t.sinkPast = s.sinkPast

/-- Every end of an EMIT is a reset, or it keeps what the rows before it kept and leaves built rows in ROWBUF. -/
theorem EmitEnd.resets_or_keeps {s u t : State} {rows : List (List Byte)} (h : EmitEnd s u rows t)
    (hbuf : BufferAfter s rows u.rowBuf) :
    (ResetValues t ∧ t.response = none) ∨ (EmitKeeps u t ∧ ∃ built, BufferAfter s built t.rowBuf) := by
  cases h with
  | endReset => exact .inl ⟨resetValues_resetBlock _, rfl⟩
  | rowReset => exact .inl ⟨resetValues_resetBlock _, rfl⟩
  | rowRefused m bytes r _ _ hm => exact .inr ⟨⟨rfl, rfl, rfl, rfl, rfl, rfl, rfl, rfl⟩, _, hm⟩
  | done => exact .inr ⟨⟨rfl, rfl, rfl, rfl, rfl, rfl, rfl, rfl⟩, rows, hbuf⟩
  | endRefused => exact .inr ⟨⟨rfl, rfl, rfl, rfl, rfl, rfl, rfl, rfl⟩, rows, hbuf⟩

/-- Settles O32: the acceptance table outside DECODED, and each end of EMIT in DECODED. -/
theorem emitFrame : Obligations.EmitFrame := by
  intro s t h
  refine ⟨fun hp he => ?outOfPhase, fun he => ?inError, fun hp => ?decoded⟩
  case outOfPhase =>
    rw [commandOutOfPhase .emit s .decoded rfl hp he] at h
    cases h
    rfl
  case inError =>
    have hexec : exec .emit s = .next (refusedInError s) := inPhase_refusedInError he
    rw [hexec] at h
    cases h
    rfl
  case decoded =>
    rw [exec_emit_decoded hp] at h
    obtain ⟨rows, buf, r, -, -, hbuf, hend⟩ := emitBody_next h
    refine (hend.resets_or_keeps hbuf).imp_right ?_
    rintro ⟨⟨hbe, hwidth, hheight, hrawLen, hexpLen, hraw, hraster, hpast⟩, built, -, -, hbuilt⟩
    exact ⟨hbe, hwidth, hheight, hrawLen, hexpLen, hraw, hraster, hpast, hbuilt.read_above⟩

end Sys2Proof.Machine
end

section
/-! The read-back commands RD and RDPX (spec/43_readback.md R90 to R93). -/

namespace Sys2Proof.Machine

/-! ### The words the host reads (R13, R15, R92) -/

/-- Joined bit vectors as a number: the high part counts in units above the low part. -/
theorem toNat_append_eq_add {m n : Nat} (hi : BitVec m) (lo : BitVec n) :
    (hi ++ lo).toNat = hi.toNat * 2 ^ n + lo.toNat := by
  rw [BitVec.toNat_append, ← Nat.shiftLeft_add_eq_or_of_lt lo.isLt, Nat.shiftLeft_eq]

/-- Settles O24: the channels are joined from alpha, the highest byte, down to red. -/
theorem packFollowsRowOrder : Obligations.PackFollowsRowOrder := by
  refine fun p => ⟨rfl, ?_⟩
  simp only [packRgba32, toNat_append_eq_add]
  omega

theorem toNat_ctrlWord (be : Bool) : (ctrlWord be).toNat = if be then 1 else 0 := by cases be <;> rfl

/-- STATUS as a number: each field at its place, the reserved bits zero. -/
theorem toNat_statusWord (phase : Phase) (err : Err) (fphase : Phase) : (statusWord phase err fphase).toNat =
    phase.code.toNat + 2 ^ 8 * err.code.toNat + 2 ^ 16 * fphase.code.toNat := by
  simp only [statusWord, toNat_append_eq_add, BitVec.ofNat_eq_ofNat, BitVec.toNat_ofNat]
  omega

theorem toNat_low32 (v : Word64) : (v.extractLsb' 0 32).toNat = v.toNat % 2 ^ 32 := by
  rw [BitVec.extractLsb'_toNat, Nat.shiftRight_zero]

theorem toNat_high32 (v : Word64) : (v.extractLsb' 32 32).toNat = v.toNat / 2 ^ 32 := by
  have := v.isLt
  rw [BitVec.extractLsb'_toNat, Nat.shiftRight_eq_div_pow]
  omega

/-! ### RD (R90) -/

/-- The response `(OK, d)` is the number `d`. -/
theorem responseWord_ok (d : Word32) : responseWord .ok d = BitVec.ofNat 40 d.toNat := by
  rw [responseWord_eq_ofNat]
  exact congrArg (BitVec.ofNat 40) (Nat.zero_add _)

/-- RD of a register that exists answers the register as a number. -/
theorem exec_rd {n : Byte} {s : State} {v : Word32} {k : Nat} (hv : readRegister n s = some v) (hk : v.toNat = k) :
    exec (.rd n) s = .next { s with response := some (BitVec.ofNat 40 k) } := by
  subst hk
  rw [← responseWord_ok]
  simp only [exec, execRd, hv]
  rfl

/-- The nine register numbers (R12). -/
theorem register_cases {n : Byte} (h : n.toNat ≤ 8) :
    n = 0 ∨ n = 1 ∨ n = 2 ∨ n = 3 ∨ n = 4 ∨ n = 5 ∨ n = 6 ∨ n = 7 ∨ n = 8 := by bv_omega

/-- Settles O33: the word by its fields, each register by its number, the illegal words by the operand form `reg`. -/
theorem rdAnswersTheRegister : Obligations.RdAnswersTheRegister := by
  refine fun n s => ⟨?word, fun hn => ?answer, fun hn => ?noSuchRegister,
    fun arg h => (decode_rd arg).trans (formReg_argNotZero h)⟩
  case word => exact (packWord_toNat 0x08 _).trans (by rw [toNat_byteArg]; rfl)
  case noSuchRegister =>
    have harg := toNat_byteArg n
    exact (decode_rd _).trans (formReg_noSuchRegister (hn.trans_eq harg.symm) (harg.trans_lt n.isLt))
  case answer =>
    obtain rfl | rfl | rfl | rfl | rfl | rfl | rfl | rfl | rfl := register_cases hn
    · exact exec_rd rfl (toNat_ctrlWord _)
    · exact exec_rd rfl rfl
    · exact exec_rd rfl rfl
    · exact exec_rd rfl (toNat_statusWord _ _ _)
    · exact exec_rd rfl (toNat_low32 _)
    · exact exec_rd rfl (toNat_high32 _)
    · exact exec_rd rfl (toNat_low32 _)
    · exact exec_rd rfl (toNat_high32 _)
    · exact exec_rd rfl rfl

/-! ### RDPX (R91) -/

/-- The Raster is valid in DECODED and DONE, and in ERROR when the fault was taken there. -/
theorem rasterValid_iff (s : State) : rasterValid s = true ↔
    s.phase = .decoded ∨ s.phase = .done ∨ (s.phase = .error ∧ (s.fphase = .decoded ∨ s.fphase = .done)) := by
  by_cases he : s.phase = .error
  · simp [rasterValid, reachedPhase, he]
  · simp [rasterValid, reachedPhase, he]

theorem exec_rdpx_pixel {i : Word32} {s : State} {p : Pixel} (hv : rasterValid s = true) (hi : i.toNat < pixelCount s)
    (hp : readRaster i.toNat s = .ok p) : exec (.rdpx i) s = .next (respond .ok (packRgba32 p) s) := by
  simp only [exec, execRdpx, hv, hi, hp, and_self, if_true]

theorem exec_rdpx_noData {i : Word32} {s : State} (h : ¬ (rasterValid s = true ∧ i.toNat < pixelCount s)) :
    exec (.rdpx i) s = .next (respond .noData 0 s) := if_neg h

/-- Every pixel of a whole Raster can be read. -/
theorem RasterWhole.readRaster_ok {s : State} (h : RasterWhole s) {i : Nat} (hi : i < pixelCount s) :
    ∃ p, readRaster i s = .ok p := by
  obtain ⟨hfit, hheld⟩ := h
  obtain ⟨p, hp⟩ := hheld i hi
  exact ⟨p, readRaster_eq_ok.2 ⟨hi.trans_le hfit, hp⟩⟩

/-- Settles O35: a pixel of a valid Raster is read from RASTER; NoData answers when the Raster is not valid or the index
is outside it. -/
theorem rdpxAnswersThePixel : Obligations.RdpxAnswersThePixel := by
  refine fun i s => ⟨packWord_toNat 0x09 i, fun hv hi hw => ?pixel, fun h => ?noData⟩
  case pixel =>
    obtain ⟨p, hp⟩ := hw.readRaster_ok hi
    refine ⟨p, (readRaster_eq_ok.1 hp).2, ?_⟩
    rw [exec_rdpx_pixel ((rasterValid_iff s).2 hv) hi hp, ← responseWord_ok]
    rfl
  case noData =>
    rw [← rasterValid_iff] at h
    refine exec_rdpx_noData fun ⟨hv, hi⟩ => ?_
    exact h.elim (absurd hv) (Nat.not_le.2 hi)

/-! ### What a read leaves unchanged (R93) -/

/-- RD and RDPX read no response: with another one on the port they end in the same outcome. -/
theorem exec_readBack_respond {i : Instr} (hi : (∃ n, i = .rd n) ∨ (∃ j, i = .rdpx j)) (c : RespCode) (d : Word32)
    (s : State) : exec i (respond c d s) = exec i s := by
  obtain ⟨n, rfl⟩ | ⟨j, rfl⟩ := hi
  · rfl
  · rfl

/-- A read only responds, with OK or NoData. -/
theorem Effect.readBack {i : Instr} {s t : State} (h : Effect s i t) (hwf : i.wellFormed = true)
    (hi : (∃ n, i = .rd n) ∨ (∃ j, i = .rdpx j)) : ∃ c d, t = respond c d s ∧ (c = .ok ∨ c = .noData) := by
  have hany : anyPhase i = true := by obtain ⟨n, rfl⟩ | ⟨j, rfl⟩ := hi <;> rfl
  cases h with
  | refused _ _ hno => exact absurd hany (by simp [hno hwf])
  | outOfPhase _ _ _ hno => exact absurd hany (by simp [hno hwf])
  | rd n v => exact ⟨.ok, v, rfl, .inl rfl⟩
  | rdpx j p => exact ⟨.ok, packRgba32 p, rfl, .inl rfl⟩
  | noData j => exact ⟨.noData, 0, rfl, .inr rfl⟩
  | reset => simp at hi
  | _ => cases hany

/-- The code field of a response word. -/
theorem responseWord_code (c : RespCode) (d : Word32) : (responseWord c d).toNat / 2 ^ 32 = c.byte.toNat := by
  have := d.isLt
  rw [responseWord_toNat]
  omega

/-- Settles O36: a read only responds, and the response on the port does not change the next read. -/
theorem readBackChangesNothing : Obligations.ReadBackChangesNothing := by
  intro i s t hwf hi h
  obtain ⟨c, d, rfl, hc⟩ := (exec_effect h).readBack hwf hi
  refine ⟨⟨responseWord c d, rfl, ?_⟩, (exec_readBack_respond hi c d s).trans h⟩
  rw [responseWord_code]
  obtain rfl | rfl := hc
  · decide
  · decide

end Sys2Proof.Machine
end

section
/-! Faults: fault entry, phase ERROR, and which command takes which fault (spec/60_exceptions.md R95 to R102, R106). -/

namespace Sys2Proof.Machine

/-! ### Fault entry (R100) -/

/-- Settles O39: `faulted` is the record R100 asks for. -/
theorem faultEntry : Obligations.FaultEntry := takeFault_eq_faulted

/-! ### Phase ERROR (R101, R106) -/

/-- A command that is not accepted in every phase has a phase of its own (R60). -/
theorem exists_homePhase {i : Instr} (h : anyPhase i = false) : ∃ p, homePhase i = some p := by
  cases i with
  | rd | rdpx | reset => cases h
  | _ => exact ⟨_, rfl⟩

theorem exec_refusedInError {i : Instr} {s : State} (hp : s.phase = .error) (hi : anyPhase i = false) :
    exec i s = .next (refusedInError s) := by
  obtain ⟨p, hhome⟩ := exists_homePhase hi
  obtain ⟨body, hbody⟩ := exec_eq_inPhase hhome
  rw [hbody, inPhase_refusedInError hp]

theorem runIllegal_refusedInError {s : State} (hp : s.phase = .error) : runIllegal s = .next (refusedInError s) := by
  rw [runIllegal_error hp, answerStored_eq_refusedInError]

/-- Settles O38: a legal word goes through the acceptance table, an illegal one is turned away; both answer the stored kind,
over the response that `present` cleared. -/
theorem errorPhaseRefusesWork : Obligations.ErrorPhaseRefusesWork := by
  intro s w rest hp hq hdec
  rcases hd : decode w with e | i
  · exact (step_illegal hq hd).trans (runIllegal_refusedInError (s := present rest s) hp)
  · exact (step_command hq hd).trans (exec_refusedInError (s := present rest s) hp (hdec i hd))

/-- What the first fault of a run fixes: PHASE, ERR and FPHASE. -/
def SameFault (s t : State) : Prop := t.phase = s.phase ∧ t.err = s.err ∧ t.fphase = s.fphase

/-- In phase ERROR a command resets the block or gives no more than a response. -/
theorem Effect.sameFault_or_reset {i : Instr} {s t : State} (h : Effect s i t) (hp : s.phase = .error) :
    SameFault s t ∨ ResetValues t := by
  cases h with
  | refused | rd | rdpx | noData => exact .inl ⟨rfl, rfl, rfl⟩
  | reset => exact .inr (resetValues_resetBlock s)
  | outOfPhase _ hne => exact absurd hp hne
  | setw _ hhome | seth _ hhome | setbe _ hhome | badSize hhome | start hhome | pushStored _ hhome | pushDropped _ hhome
  | badLength hhome | decode _ _ hhome | emit _ _ _ _ hhome => cases hhome.symm.trans hp

/-- Settles O40: in phase ERROR a step waits, resets, answers, or turns an illegal word away with the stored kind. -/
theorem firstFaultIsKept : Obligations.FirstFaultIsKept := by
  intro s t hp h
  suffices hkept : SameFault s t ∨ ResetValues t from hkept.imp_left fun ⟨hphase, hfault⟩ => ⟨hphase.trans hp, hfault⟩
  rcases step_cases s with ⟨-, he⟩ | ⟨rest, -, he⟩ | ⟨w, rest, i, -, -, he⟩ | ⟨w, rest, e, -, -, he⟩ <;> rw [he] at h
  · cases h; exact .inl ⟨rfl, rfl, rfl⟩
  · cases h; exact .inr (resetValues_resetBlock _)
  · exact (exec_effect h).sameFault_or_reset hp
  · cases (runIllegal_error (s := present rest s) hp).symm.trans h
    exact .inl ⟨rfl, rfl, rfl⟩

/-! ### The summary table (R102) -/

/-- What every fault records: the phase in FPHASE, and the four registers as they were. -/
def FaultRecord (s t : State) : Prop :=
  t.fphase = s.phase ∧ t.width = s.width ∧ t.height = s.height ∧ t.rawLen = s.rawLen ∧ t.expLen = s.expLen

/-- An EMIT that ends in ERROR had a row or the end-of-image signal refused, and ROWCNT is the number of rows accepted before
(R84, R85). -/
theorem emitEnd_fault {s t : State} {rows : List (List Byte)} {buf : Memory Byte} {r : List SinkReply}
    (h : EmitEnd s (emitProgress rows buf r (setRowCnt 0 s)) rows t) (ht : t.phase = .error) :
    FaultRecord s t ∧
    ((t.err = .io ∧ ∃ bytes, t.sinkSent.getLast? = some (rowRefused bytes) ∧ RowOf s t.rowCnt.toNat bytes) ∨
     (t.err = .encode ∧ t.sinkSent.getLast? = some (endAnswered .fail) ∧ t.rowCnt = s.height)) := by
  rw [emitProgress_from_zero] at h
  cases h with
  | rowRefused m bytes r' hl hrow =>
    have hcnt : (BitVec.ofNat 32 rows.length).toNat = rows.length :=
      (BitVec.toNat_ofNat ..).trans (Nat.mod_eq_of_lt (hl.trans s.height.isLt))
    exact ⟨⟨rfl, rfl, rfl, rfl, rfl⟩, .inl ⟨rfl, bytes, List.getLast?_concat, hcnt.symm ▸ hrow⟩⟩
  | endRefused r' hl =>
    have hcnt : BitVec.ofNat 32 rows.length = s.height := by rw [hl, BitVec.ofNat_toNat, BitVec.setWidth_eq]
    exact ⟨⟨rfl, rfl, rfl, rfl, rfl⟩, .inr ⟨rfl, List.getLast?_concat, hcnt⟩⟩
  | done | endReset | rowReset => cases ht

/-- Settles O44: of the ways a command gives a next state, four can enter phase ERROR, and EMIT's fills two rows of the
table. -/
theorem faultsByCommandAndPhase : Obligations.FaultsByCommandAndPhase := by
  intro i s t h hs ht
  cases exec_effect h with
  | badSize hp hbad =>
    exact ⟨rfl, ⟨rfl, rfl, rfl, rfl⟩,
      .inl ⟨rfl, rfl, hp, hbad.imp (congrArg BitVec.toNat) (Or.imp_left (congrArg BitVec.toNat))⟩⟩
  | badLength hp hlen => exact ⟨rfl, ⟨rfl, rfl, rfl, rfl⟩, .inr (.inr (.inl ⟨rfl, rfl, hp, hlen⟩))⟩
  | emit rows buf r _ hp _ _ _ hend =>
    obtain ⟨⟨hfphase, hkept⟩, ⟨herr, hrefused⟩ | ⟨herr, hrefused⟩⟩ := emitEnd_fault hend ht
    · exact ⟨hfphase, hkept, .inr (.inl ⟨herr, rfl, hp, hrefused⟩)⟩
    · exact ⟨hfphase, hkept, .inr (.inr (.inr (.inl ⟨herr, rfl, hp, hrefused⟩)))⟩
  | outOfPhase _ _ hhome hany =>
    have hword : anyPhase i = false ∨ i.wellFormed = false := (Bool.eq_false_or_eq_true i.wellFormed).imp_left hany
    exact ⟨rfl, ⟨rfl, rfl, rfl, rfl⟩, .inr (.inr (.inr (.inr ⟨rfl, hhome, hword⟩)))⟩
  | start | decode | reset => cases ht
  | refused | rd | rdpx | noData | setw | seth | setbe => exact absurd ht hs
  | pushStored | pushDropped => exact absurd (by simpa using ht) hs

end Sys2Proof.Machine
end

section
/-! Waiting and the two resets between commands (spec/70_reset_and_hazards.md R115, R116). -/

namespace Sys2Proof.Machine

/-- Settles O10: an empty list of the host is a command port that shows nothing. -/
theorem waitingChangesNothing : Obligations.WaitingChangesNothing := by
  intro s h
  rw [step, fetch_nothing h]

/-- Settles O13: both are `resetBlock`, which looks at nothing that `present` and `popHost` do differently. -/
theorem hardResetAgreesWithResetCommand : Obligations.HardResetAgreesWithResetCommand := by
  intro s t rest h
  rw [step_hardReset rfl] at h
  cases h
  exact step_command rfl (decode_encode .reset rfl)

end Sys2Proof.Machine
end

section
/-! The sink port along every command and every step (spec/70_reset_and_hazards.md R116, R117, R119). -/

namespace Sys2Proof.Machine

/-! ### What the sink has seen (R116, R117) -/

/-- The transactions made and the answers to come are the same in both states. -/
def SameSinkPort (s t : State) : Prop := sinkHistory t = sinkHistory s ∧ t.sinkReplies = s.sinkReplies

/-- Of the ways a command gives a next state, the body of EMIT alone makes transactions. -/
theorem Effect.sameSinkPort {i : Instr} {s t : State} (h : Effect s i t) (hi : i ≠ .emit ∨ s.phase ≠ .decoded) :
    SameSinkPort s t := by
  cases h with
  | emit _ _ _ _ hp => exact absurd hp (hi.resolve_left fun hne => hne rfl)
  | reset => exact ⟨sinkHistory_resetBlock s, rfl⟩
  | pushStored | pushDropped => simp [SameSinkPort, sinkHistory]
  | _ => exact ⟨rfl, rfl⟩

/-- Settles O46: every way a command gives a next state, one by one. -/
theorem onlyEmitUsesTheSinkPort : Obligations.OnlyEmitUsesTheSinkPort :=
  fun _ _ _ h hi => (exec_effect h).sameSinkPort hi

/-- A command adds transactions at the end of the sink port's history, if any. -/
theorem exec_history_grows {i : Instr} {s t : State} (h : exec i s = .next t) :
    ∃ new, sinkHistory t = sinkHistory s ++ new := by
  by_cases hemit : i = .emit ∧ s.phase = .decoded
  · obtain ⟨rfl, hp⟩ := hemit
    obtain ⟨rows, last, -, -, hhist, -⟩ := emitSendsRowsInOrder s t hp h
    exact ⟨rows.map rowAccepted ++ [last], by rw [hhist, List.append_assoc]⟩
  · obtain ⟨hhist, -⟩ := onlyEmitUsesTheSinkPort i s t h (not_and_or.1 hemit)
    exact ⟨[], by rw [hhist, List.append_nil]⟩

theorem runIllegal_sinkHistory {s t : State} (h : runIllegal s = .next t) : sinkHistory t = sinkHistory s := by
  rcases runIllegal_next h with ⟨-, rfl⟩ | ⟨-, rfl⟩ <;> rfl

/-- Settles O48: a command adds transactions; waiting, a hardware reset and an illegal word make none. -/
theorem sinkHistoryOnlyGrows : Obligations.SinkHistoryOnlyGrows := by
  intro s t h
  rcases step_cases s with ⟨-, he⟩ | ⟨rest, -, he⟩ | ⟨w, rest, i, -, -, he⟩ | ⟨w, rest, e, -, -, he⟩ <;> rw [he] at h
  · cases h
    exact ⟨[], (List.append_nil _).symm⟩
  · cases h
    exact ⟨[], (sinkHistory_resetBlock _).trans (List.append_nil _).symm⟩
  · exact exec_history_grows (s := present rest s) h
  · exact ⟨[], (runIllegal_sinkHistory (s := present rest s) h).trans (List.append_nil _).symm⟩

/-! ### What this run has sent, by the phase (R119) -/

/-- Before EMIT the sink has been sent nothing. -/
theorem SinkInv.nothing_sent {s : State} (h : SinkInv s) (hp : s.phase = .idle ∨ s.phase = .loading ∨ s.phase = .decoded) :
    s.sinkSent = [] := by
  rcases hp with hp | hp | hp
  · exact h.before_decoded (.inl (by simp [reachedPhase, hp]))
  · exact h.before_decoded (.inr (by simp [reachedPhase, hp]))
  · exact h.not_emitted (by simp [reachedPhase, hp]) (by simp [hp])

theorem sinkInv_respond {s : State} (h : SinkInv s) (c : RespCode) (d : Word32) : SinkInv (respond c d s) :=
  sinkInv_of h rfl rfl rfl rfl rfl rfl rfl rfl

theorem sinkInv_present {s : State} (h : SinkInv s) (rest : List HostEvent) : SinkInv (present rest s) :=
  sinkInv_of h rfl rfl rfl rfl rfl rfl rfl rfl

/-- A command that works in IDLE or LOADING and takes no fault: it sends nothing, and the run has not come to DONE. -/
theorem SinkInv.before_emit {s t : State} (h : SinkInv s) (hp : s.phase = .idle ∨ s.phase = .loading)
    (hsent : t.sinkSent = s.sinkSent) (ht : t.phase = .idle ∨ t.phase = .loading ∨ t.phase = .decoded) : SinkInv t := by
  have hnone : t.sinkSent = [] := hsent.trans (h.nothing_sent (hp.imp_right .inl))
  exact sinkInv_of_nothing_sent hnone (fun hd => by simp [hd] at ht) fun he => by simp [he] at ht

/-- After an IoError: the rows counted by ROWCNT, then the row refused (spec/42_row_emitter.md R84). -/
theorem sinkInv_of_row_failed {s : State} {rows : List (List Byte)} {bytes : List Byte} (hp : s.phase = .error)
    (hf : s.fphase = .decoded) (he : s.err = .io) (hl : rows.length = s.rowCnt.toNat) (hlt : rows.length < s.height.toNat)
    (hrows : RowsOf s rows) (hrow : RowOf s rows.length bytes)
    (hsent : s.sinkSent = rows.map rowAccepted ++ [rowRefused bytes]) : SinkInv s where
  before_decoded := by simp [reachedPhase, hp, hf]
  not_emitted := by simp [hp, he]
  row_failed _ _ _ := ⟨rows, bytes, hl, hlt, hrows, hrow, hsent⟩
  end_failed := by simp [he]
  complete := by simp [reachedPhase, hp, hf]

/-- After an EncodeError: every row, then the end-of-image signal refused (R85). -/
theorem sinkInv_of_end_failed {s : State} {rows : List (List Byte)} (hp : s.phase = .error)
    (hf : s.fphase = .decoded) (he : s.err = .encode) (hl : rows.length = s.height.toNat)
    (hrows : RowsOf s rows) (hsent : s.sinkSent = rows.map rowAccepted ++ [endAnswered .fail]) : SinkInv s where
  before_decoded := by simp [reachedPhase, hp, hf]
  not_emitted := by simp [hp, he]
  row_failed := by simp [he]
  end_failed _ _ _ := ⟨rows, hl, hrows, hsent⟩
  complete := by simp [reachedPhase, hp, hf]

/-- In DONE: every row and the end-of-image signal accepted (R83). -/
theorem sinkInv_of_complete {s : State} {rows : List (List Byte)} (hp : s.phase = .done)
    (hl : rows.length = s.height.toNat) (hrows : RowsOf s rows)
    (hsent : s.sinkSent = rows.map rowAccepted ++ [endAnswered .ok]) : SinkInv s where
  before_decoded := by simp [reachedPhase, hp]
  not_emitted := by simp [reachedPhase, hp]
  row_failed := by simp [hp]
  end_failed := by simp [hp]
  complete _ := ⟨rows, hl, hrows, hsent⟩

/-- Every end of an EMIT that had sent nothing before leaves what `SinkInv` asks for. -/
theorem sinkInv_emitEnd {s t : State} {rows : List (List Byte)} {buf : Memory Byte} {r : List SinkReply}
    (hp : s.phase = .decoded) (hnone : s.sinkSent = []) (hrows : RowsOf s rows)
    (h : EmitEnd s (emitProgress rows buf r (setRowCnt 0 s)) rows t) : SinkInv t := by
  rw [emitProgress_from_zero, hnone, List.nil_append] at h
  cases h with
  | done r' hl => exact sinkInv_of_complete rfl hl hrows rfl
  | endRefused r' hl => exact sinkInv_of_end_failed rfl hp rfl hl hrows rfl
  | rowRefused m bytes r' hl hrow =>
    have hcnt : rows.length = (BitVec.ofNat 32 rows.length).toNat :=
      ((BitVec.toNat_ofNat ..).trans (Nat.mod_eq_of_lt (hl.trans s.height.isLt))).symm
    exact sinkInv_of_row_failed rfl hp rfl hcnt hl hrows hrow rfl
  | endReset | rowReset => exact sinkInv_resetBlock _

/-- Every way a command gives a next state keeps `SinkInv`. -/
theorem sinkInv_effect {i : Instr} {s t : State} (h : SinkInv s) (he : Effect s i t) : SinkInv t := by
  cases he with
  | refused | rd | rdpx | noData => exact sinkInv_respond h _ _
  | outOfPhase _ hp => exact sinkInv_takeFault h hp _ nofun nofun
  | badSize hp | badLength hp => exact sinkInv_takeFault h (by simp [hp]) _ nofun nofun
  | reset => exact sinkInv_respond (sinkInv_resetBlock s) _ _
  | setw _ hp | seth _ hp | setbe _ hp => exact h.before_emit (.inl hp) rfl (.inl hp)
  | start hp => exact h.before_emit (.inl hp) rfl (.inr (.inl rfl))
  | pushStored _ hp | pushDropped _ hp => exact h.before_emit (.inr hp) (by simp) (.inr (.inl (by simpa using hp)))
  | decode _ _ hp => exact h.before_emit (.inr hp) rfl (.inr (.inr rfl))
  | emit rows buf r _ hp _ hrows _ hend => exact sinkInv_emitEnd hp (h.nothing_sent (.inr (.inr hp))) hrows hend

theorem sinkInv_runIllegal {s t : State} (h : SinkInv s) (hr : runIllegal s = .next t) : SinkInv t := by
  rcases runIllegal_next hr with ⟨-, rfl⟩ | ⟨hp, rfl⟩
  · exact sinkInv_respond h _ _
  · exact sinkInv_takeFault h hp _ nofun nofun

/-- Settles O54: a step waits, resets, runs a command or turns an illegal word away, and each keeps `SinkInv`. -/
theorem stepKeepsSinkInvariants : Obligations.StepKeepsSinkInvariants := by
  intro s t h hs
  rcases step_cases s with ⟨-, he⟩ | ⟨rest, -, he⟩ | ⟨w, rest, i, -, -, he⟩ | ⟨w, rest, e, -, -, he⟩ <;> rw [he] at hs
  · cases hs; exact h
  · cases hs; exact sinkInv_resetBlock _
  · exact sinkInv_effect (sinkInv_present h rest) (exec_effect hs)
  · exact sinkInv_runIllegal (sinkInv_present h rest) hs

/-- The sink accepted an end-of-image signal. -/
def EndAccepted (x : SinkTxn) : Prop := x.request = .endOfImage ∧ x.answer = some .ok

/-- Accepted rows and one more transaction: only that one can be an accepted end-of-image signal. -/
theorem not_endAccepted_of_rows_append {rows : List (List Byte)} {last : SinkTxn} (hlast : ¬ EndAccepted last) :
    ∀ x ∈ rows.map rowAccepted ++ [last], ¬ EndAccepted x := by
  intro x hx
  rcases List.mem_append.1 hx with hrow | hend
  · obtain ⟨bytes, -, rfl⟩ := List.mem_map.1 hrow
    exact fun ⟨hreq, _⟩ => nomatch hreq
  · obtain rfl := List.mem_singleton.1 hend
    exact hlast

/-- Settles O55: by the phase the fault was taken in, and in DECODED by the kind of the fault. -/
theorem noImageInPhaseError : Obligations.NoImageInPhaseError := by
  intro s hinv h hbad hdone
  have hp : s.phase = .error := by simpa [endedBadly] using hbad
  have hreach := reachedPhase_of_error hp
  suffices hnot : ∀ x ∈ s.sinkSent, ¬ EndAccepted x from fun x hx hreq hok => hnot x hx ⟨hreq, hok⟩
  have of_nothing : s.sinkSent = [] → ∀ x ∈ s.sinkSent, ¬ EndAccepted x := fun hnil x hx => by simp [hnil] at hx
  cases hf : s.fphase with
  | idle => exact of_nothing (h.before_decoded (.inl (hreach.trans hf)))
  | loading => exact of_nothing (h.before_decoded (.inr (hreach.trans hf)))
  | done => exact absurd hf hdone
  | error => exact absurd hf hinv.fphase_ne_error
  | decoded =>
    by_cases hio : s.err = .io
    · obtain ⟨rows, bytes, -, -, -, -, hsent⟩ := h.row_failed hp hf hio
      rw [hsent]
      exact not_endAccepted_of_rows_append fun ⟨hreq, _⟩ => nomatch hreq
    by_cases hencode : s.err = .encode
    · obtain ⟨rows, -, -, hsent⟩ := h.end_failed hp hf hencode
      rw [hsent]
      exact not_endAccepted_of_rows_append fun ⟨_, hok⟩ => nomatch hok
    · exact of_nothing (h.not_emitted (hreach.trans hf) fun ⟨_, he⟩ => he.elim hio hencode)

end Sys2Proof.Machine
end

section
/-! EMIT cut off by a hardware reset, and the completion of every command (spec/70_reset_and_hazards.md R117, R123). -/

namespace Sys2Proof.Machine

/-! ### A hardware reset during EMIT (R117) -/

/-- A reply that is a hardware reset, with the answer it leaves on record. -/
def ResetReply (x : SinkReply) (a : Option SinkAnswer) : Prop :=
  (x = .resetFirst ∧ a = none) ∨ ∃ b, x = .answerThenReset b ∧ a = some b

theorem sinkTransact_reset {q : SinkRequest} {f g : State → Result} {s : State} {x : SinkReply} {a : Option SinkAnswer}
    {r : List SinkReply} (hx : ResetReply x a) (h : s.sinkReplies = x :: r) :
    sinkTransact q f g s = .next (resetBlock (recordTxn q a r s)) := by
  obtain ⟨rfl, rfl⟩ | ⟨b, rfl, rfl⟩ := hx <;> simp [sinkTransact, h]

/-- A sink that accepts `k` rows, and no more at once, brings EMIT to the transaction that is due next: row `k`, or the
end-of-image signal. -/
theorem exec_emit_reaches_request {s : State} {k : Nat} {r : List SinkReply} (hp : s.phase = .decoded)
    (hw : RasterWhole s) (hk : k ≤ s.height.toNat) (hr : s.sinkReplies = List.replicate k (.answer .ok) ++ r)
    (hstop : ∀ q, r ≠ .answer .ok :: q) :
    ∃ rows q n buf onOk onFail, rows.length = k ∧ RowsOf s rows ∧ NextRequest s rows q ∧
      exec .emit s = sinkTransact q onOk onFail { s with
        rowCnt := n, rowBuf := buf, sinkReplies := r, sinkSent := s.sinkSent ++ rows.map rowAccepted } := by
  rcases Nat.lt_or_eq_of_le hk with hlt | rfl
  · obtain ⟨rows, bytes, buf, onOk, rfl, hrows, hrow, -, hexec⟩ := exec_emit_reaches_row hp hw hlt hr hstop
    exact ⟨rows, _, _, buf, _, _, rfl, hrows, .inl ⟨hlt, bytes, rfl, hrow⟩, hexec⟩
  · obtain ⟨rows, buf, hl, hrows, -, hexec⟩ := exec_emit_reaches_end hp hw hr
    exact ⟨rows, _, _, buf, _, _, hl, hrows, .inr ⟨hl, rfl⟩, hexec⟩

/-- Settles O30: the transaction that is due next gets the reply of the reset. -/
theorem hardResetDuringEmit : Obligations.HardResetDuringEmit := by
  intro s k x a rest hp hw hk hr hx
  have hstop : ∀ q, x :: rest ≠ .answer .ok :: q := by
    obtain ⟨rfl, -⟩ | ⟨b, rfl, -⟩ := hx <;> nofun
  obtain ⟨rows, q, n, buf, onOk, onFail, rfl, hrows, hq, hexec⟩ := exec_emit_reaches_request hp hw hk hr hstop
  rw [sinkTransact_reset hx rfl] at hexec
  refine ⟨rows, q, _, rfl, hrows, fun heq => ?atEnd, fun hlt => ?atRow, hexec, resetValues_resetBlock _, rfl, ?history,
    rfl, rfl, rfl⟩
  case atEnd => exact (hq.resolve_left fun ⟨hlt, _⟩ => absurd heq (Nat.ne_of_lt hlt)).2
  case atRow => exact (hq.resolve_right fun ⟨heq, _⟩ => absurd heq (Nat.ne_of_lt hlt)).2
  case history =>
    rw [sinkHistory_resetBlock, sinkHistory_recordTxn]
    simp only [sinkHistory, List.append_assoc]

/-! ### Every command completes (R123) -/

/-- A sink that has a reply for every row and for the end-of-image signal does not leave EMIT waiting. -/
theorem exec_emit_not_silent {s : State} (hp : s.phase = .decoded) (hr : s.height.toNat < s.sinkReplies.length) :
    exec .emit s ≠ .fault .sinkSilent := by
  rw [exec_emit_decoded hp]
  exact emitRows_not_silent (s := setRowCnt 0 s) hr

/-- Settles O57: under `StateInv` nothing but the sink's silence stops a command. -/
theorem everyCommandCompletes : Obligations.EveryCommandCompletes := by
  intro i s _ h hr
  rcases exec_completes (i := i) h with hnext | ⟨hsilent, rfl, hp⟩
  · exact hnext
  · exact absurd hsilent (exec_emit_not_silent hp (hr rfl hp))

end Sys2Proof.Machine
end

section
/-! The commands of a good run, from the reset values to the whole image at the sink (spec/70_reset_and_hazards.md R119,
R120). -/

namespace Sys2Proof.Machine

/-! ### Runs -/

/-- A run of `m` steps and a run of `n` more. -/
theorem runSteps_add {m n : Nat} : ∀ {s t : State}, runSteps m s = .next t → runSteps (m + n) s = runSteps n t := by
  induction m with
  | zero =>
    intro s t h
    cases h
    rw [Nat.zero_add]
  | succ m ih =>
    intro s t h
    rw [Nat.succ_add, runSteps]
    rw [runSteps] at h
    split at h
    · next u hu => simpa only [hu] using ih h
    · next r hr => exact absurd h (hr t)

/-- The host presents a command, and the run goes on from what it leaves. -/
theorem runSteps_command {n : Nat} {i : Instr} {s t : State} {rest : List HostEvent} (hi : i.wellFormed = true)
    (hq : s.hostQueue = .command (encode i) :: rest) (he : exec i (present rest s) = .next t) :
    runSteps (n + 1) s = runSteps n t := by
  rw [runSteps, step_command hq (decode_encode i hi), he]

/-! ### The image at the sink -/

/-- The run has ended well and `rows` is what the sink has accepted of it, besides the end-of-image signal: the decoded pixels
of the raw buffer, row by row. -/
structure Delivered (rest : List HostEvent) (rows : List (List Byte)) (s t : State) : Prop where
  done : t.phase = .done
  answered : t.response = some 0
  host : t.hostQueue = rest
  sent : t.sinkSent = s.sinkSent ++ rows.map rowAccepted ++ [endAnswered .ok]
  count : rows.length = s.height.toNat
  row_length : ∀ bs ∈ rows, bs.length = 4 * s.width.toNat
  pixels : ∀ i b0 b1, i < pixelCount s → Memory.read s.raw (2 * i) = some b0 → Memory.read s.raw (2 * i + 1) = some b1 →
    rows.flatten[4 * i]? = some (decodePixel b0 b1 s.be).red ∧
    rows.flatten[4 * i + 1]? = some (decodePixel b0 b1 s.be).green ∧
    rows.flatten[4 * i + 2]? = some (decodePixel b0 b1 s.be).blue ∧
    rows.flatten[4 * i + 3]? = some (decodePixel b0 b1 s.be).alpha

/-- DECODE leaves a whole Raster. -/
theorem RasterDecoded.whole {s : State} {m : Memory Pixel} (h : RasterDecoded s m) (hw : RawWhole s) :
    RasterWhole (setRaster m s) := by
  obtain ⟨hfit, hheld⟩ := hw
  refine ⟨hfit, fun i hi => ?_⟩
  change i < pixelCount s at hi
  obtain ⟨b0, h0⟩ := hheld (2 * i) (by omega)
  obtain ⟨b1, h1⟩ := hheld (2 * i + 1) (by omega)
  exact ⟨_, h.below i b0 b1 hi h0 h1⟩

/-! ### The parts of a good run -/

theorem exec_setw_idle {s : State} (hp : s.phase = .idle) (v : Word32) :
    exec (.setw v) s = .next (respond .ok 0 (setWidth v s)) := (inPhase_idle_update (setWidth v) s).1 hp

theorem exec_seth_idle {s : State} (hp : s.phase = .idle) (v : Word32) :
    exec (.seth v) s = .next (respond .ok 0 (setHeight v s)) := (inPhase_idle_update (setHeight v) s).1 hp

theorem exec_setbe_idle {s : State} (hp : s.phase = .idle) (b : Bool) :
    exec (.setbe b) s = .next (respond .ok 0 (setBe b s)) := (inPhase_idle_update (setBe b) s).1 hp

theorem exec_start_idle {s : State} (hp : s.phase = .idle) : exec .start s = startBody s := inPhase_accepted hp nofun

/-- The state after the configuration and START of a legal size, with `rest` left in the host's list (spec/40_run_control.md
R61 to R64). -/
def started (w h : Word32) (be : Bool) (rest : List HostEvent) (s : State) : State :=
  { s with
    width := w, height := h, be := be, expLen := BitVec.ofNat 64 (2 * (w.toNat * h.toNat)), rawLen := 0
    phase := .loading, response := some 0, hostQueue := rest }

theorem runSteps_start {w h : Word32} {be : Bool} {rest : List HostEvent} {s : State} (hp : s.phase = .idle)
    (hw : 1 ≤ w.toNat) (hh : 1 ≤ h.toNat) (hfit : w.toNat * h.toNat ≤ maxPix s)
    (hq : s.hostQueue = presented (configCommands w h be ++ [.start]) ++ rest) :
    runSteps 4 s = .next (started w h be rest s) := by
  refine (runSteps_command rfl hq (exec_setw_idle (by simpa using hp) w)).trans ?_
  refine (runSteps_command rfl rfl (exec_seth_idle (by simpa using hp) h)).trans ?_
  refine (runSteps_command rfl rfl (exec_setbe_idle (by simpa using hp) be)).trans ?_
  exact runSteps_command rfl rfl ((exec_start_idle (by simpa using hp)).trans (startBody_of_legalSize hw hh hfit))

/-- `u` is ready for DECODE: the configuration is frozen and the whole image stands in RAW. Towards the sink nothing has
happened since `s`. -/
structure Loaded (w h : Word32) (be : Bool) (bytes : List Byte) (rest : List HostEvent) (s u : State) : Prop where
  phase : u.phase = .loading
  width : u.width = w
  height : u.height = h
  order : u.be = be
  full : u.rawLen = u.expLen
  cells : ∀ a, a < bytes.length → Memory.read u.raw a = bytes[a]?
  host : u.hostQueue = rest
  replies : u.sinkReplies = s.sinkReplies
  sent : u.sinkSent = s.sinkSent
  fits : pixelCount u ≤ maxPix u

/-- The configuration, START and all the bytes of an image of legal size (spec/41_decoder.md R70). -/
theorem runSteps_load {w h : Word32} {be : Bool} {bytes : List Byte} {rest : List HostEvent} {s : State}
    (hp : s.phase = .idle) (hw : 1 ≤ w.toNat) (hh : 1 ≤ h.toNat) (hfit : w.toNat * h.toNat ≤ maxPix s)
    (hbytes : bytes.length = 2 * (w.toNat * h.toNat))
    (hq : s.hostQueue = presented (configCommands w h be ++ [.start]) ++ (presented (pushCommands bytes) ++ rest)) :
    ∃ u, runSteps (4 + bytes.length) s = .next u ∧ Loaded w h be bytes rest s u := by
  have hmax := maxPix_le s
  have hexp : (BitVec.ofNat 64 (2 * (w.toNat * h.toNat))).toNat = bytes.length := by
    rw [BitVec.toNat_ofNat, Nat.mod_eq_of_lt (by omega), hbytes]
  have hroom : bytes.length ≤ rawCap s := hbytes.trans_le (Nat.mul_le_mul_left 2 hfit)
  obtain ⟨u, hpush, hcount, hcells, hu⟩ := pushesFillRawInOrder bytes rest
    (started w h be (presented (pushCommands bytes) ++ rest) s) rfl rfl (hexp.trans_le hroom) (by omega) rfl
  exact ⟨u, (runSteps_add (runSteps_start hp hw hh hfit hq)).trans hpush, {
    phase := congrArg State.phase hu
    width := congrArg State.width hu
    height := congrArg State.height hu
    order := congrArg State.be hu
    full := BitVec.eq_of_toNat_eq ((hcount.trans hexp.symm).trans (congrArg (·.expLen.toNat) hu).symm)
    cells := fun a ha => (hcells a).trans (if_pos ⟨ha, ha.trans_eq hexp.symm⟩)
    host := congrArg State.hostQueue hu
    replies := (congrArg State.sinkReplies hu :)
    sent := (congrArg State.sinkSent hu :)
    fits := by rw [hu]; exact hfit }⟩

/-- The loaded bytes are the whole raw buffer. -/
theorem Loaded.rawWhole {w h : Word32} {be : Bool} {bytes : List Byte} {rest : List HostEvent} {s u : State}
    (hu : Loaded w h be bytes rest s u) (hbytes : bytes.length = 2 * pixelCount u) : RawWhole u :=
  ⟨hu.fits, fun a ha => ⟨bytes[a], (hu.cells a (by omega)).trans (List.getElem?_eq_getElem _)⟩⟩

/-- DECODE and EMIT over a whole raw buffer, to a sink that accepts everything (spec/41_decoder.md R71,
spec/42_row_emitter.md R80, R86). -/
theorem runSteps_decode_emit {s : State} {rest : List HostEvent} {more : List SinkReply} (hp : s.phase = .loading)
    (hlen : s.rawLen = s.expLen) (hw : RawWhole s) (hq : s.hostQueue = presented [.decode, .emit] ++ rest)
    (hr : s.sinkReplies = List.replicate (s.height.toNat + 1) (.answer .ok) ++ more) :
    ∃ rows t, runSteps 2 s = .next t ∧ Delivered rest rows s t := by
  obtain ⟨m, hdecode, hm⟩ := exec_decode_loading (s := present (presented [.emit] ++ rest) s) hp hlen hw
  have hraster : RasterDecoded s m := ⟨hm.below, hm.above⟩
  obtain ⟨rows, t, hl, hrows, hemit, -, ht⟩ := emitSucceeds (present rest (respond .ok 0 (setPhase .decoded
    (setRaster m (present (presented [.emit] ++ rest) s))))) more rfl (hraster.whole hw) hr
  refine ⟨rows, t, ?run, ?_⟩
  case run => rw [runSteps_command rfl hq hdecode, runSteps_command rfl rfl hemit]; rfl
  rw [ht]
  refine ⟨rfl, rfl, rfl, rfl, hl, hrows.row_length, fun i b0 b1 hi h0 h1 => ?_⟩
  obtain ⟨p, hp, hchannels⟩ := hrows.flatten_pixel hl hi
  obtain rfl := Option.some.inj ((hraster.below i b0 b1 hi h0 h1).symm.trans hp)
  exact hchannels

/-- Settles O59: the image is loaded, then DECODE and EMIT deliver it. -/
theorem goodRunDeliversTheImage : Obligations.GoodRunDeliversTheImage := by
  intro w h be bytes rest more s hreset hw hh hfit hbytes hq hr
  obtain ⟨-, -, -, hidle, -, -, -, -, -, -, -, -, hnone⟩ := hreset
  obtain ⟨u, hload, hu⟩ := runSteps_load (be := be) (rest := presented [.decode, .emit] ++ rest) hidle hw hh hfit hbytes
    (by simp [hq, presented])
  obtain rfl := hu.width
  obtain rfl := hu.height
  obtain rfl := hu.order
  obtain ⟨rows, t, hemit, ht⟩ := runSteps_decode_emit hu.phase hu.full (hu.rawWhole hbytes) hu.host (hu.replies.trans hr)
  refine ⟨rows, t, ?run, decide_eq_true ht.done, ht.answered, ht.host, ?sent, ht.count, ht.row_length, fun i hi => ?pixels⟩
  case run => rw [show bytes.length + 6 = 4 + bytes.length + 2 by omega, runSteps_add hload, hemit]
  case sent => rw [ht.sent, hu.sent, hnone, List.nil_append]
  case pixels =>
    have h0 : 2 * i < bytes.length := by omega
    have h1 : 2 * i + 1 < bytes.length := by omega
    refine ⟨bytes[2 * i], bytes[2 * i + 1], List.getElem?_eq_getElem h0, List.getElem?_eq_getElem h1, ?_⟩
    exact ht.pixels i _ _ hi ((hu.cells _ h0).trans (List.getElem?_eq_getElem h0))
      ((hu.cells _ h1).trans (List.getElem?_eq_getElem h1))

end Sys2Proof.Machine
end
